-- ==== Sys2Proof/Word.lean ====
section
/-! DEFINITION. The word types of the block, by the widths of `30_encoding.md` R60 and `10_state.md` R20, R27.

Everything here is a width the spec fixes (`00_scope.md` R7); bit 0 is the least significant bit (R8). -/

namespace Sys2Proof

/-- A 32-bit word: a `RawFrame`, or a binary32 pattern (`00_scope.md` R7, `FRAME_W`; R8). -/
abbrev Word := BitVec 32

/-- The unsigned 14-bit `hotJunctionRaw` field, `HOT_W` (`30_encoding.md` R60, R67). -/
abbrev HotField := BitVec 14

/-- The unsigned 12-bit `coldJunctionRaw` field, `COLD_W` (`30_encoding.md` R60, R68). -/
abbrev ColdField := BitVec 12

/-- The 3-bit fault code held in `FC` (`10_state.md` R27). -/
abbrev FaultCodeWord := BitVec 3

/-- One 8-bit unit of the serial exchange that the collaborator packs into a frame (`20_memory.md` R40). -/
abbrev SerialUnit := BitVec 8

end Sys2Proof
end

