-- ==== Sys2Proof/Syntax.lean ====
section
/-! DEFINITION. The block's "instructions" (the seven frame classes), the fields of a frame, the input ports
sampled at one rising edge, and the stimulus notation of `30_encoding.md` R74. No meaning stands here.

`00_scope.md` R5 maps the words: the instruction word is the 32-bit frame, the opcode is the frame class, the
operands are the two numeric fields and the single bits that the class leaves free. -/

namespace Sys2Proof

/-- One constructor per row of `spec/opcode_table.json` (`30_encoding.md` R70). Each carries exactly the fields the
row leaves free, in the order of the frame's bits (31 down to 0); the fixed bits of the row are in the constructor. -/
inductive Instr where
  /-- `FRAME.OC`, open circuit: `oc = 1` (R111). -/
  | frameOc (hot : HotField) (r17 gf : Bool) (cold : ColdField) (r3 scv scg : Bool)
  /-- `FRAME.SCG`, short to ground: `scg oc = 10` (R112). -/
  | frameScg (hot : HotField) (r17 gf : Bool) (cold : ColdField) (r3 scv : Bool)
  /-- `FRAME.SCV`, short to supply: `scv scg oc = 100` (R113). -/
  | frameScv (hot : HotField) (r17 gf : Bool) (cold : ColdField) (r3 : Bool)
  /-- `FRAME.RSV3`, reserved bit 3 set: `r3 scv scg oc = 1000` (R114). -/
  | frameRsv3 (hot : HotField) (r17 gf : Bool) (cold : ColdField)
  /-- `FRAME.RSV17`, reserved bit 17 set alone: `r17 = 1`, low four bits 0 (R115). -/
  | frameRsv17 (hot : HotField) (gf : Bool) (cold : ColdField)
  /-- `FRAME.GFU`, unclassified general fault: `r17 gf = 01`, low four bits 0 (R117). -/
  | frameGfu (hot : HotField) (cold : ColdField)
  /-- `FRAME.NONE`, no fault: `r17 gf = 00`, low four bits 0 (R116). -/
  | frameNone (hot : HotField) (cold : ColdField)
  deriving DecidableEq, Repr

/-- The seven frame classes, one per row of the opcode table (`30_encoding.md` R70). -/
inductive FrameClass where
  | oc | scg | scv | rsv3 | rsv17 | gfu | none
  deriving DecidableEq, Repr

/-- `DecodedFields`, the eight sub-fields of a frame, under the source's names (`40_frame_decode.md` R90, R92). They
are wires inside one step and never state. -/
structure DecodedFields where
  hotJunctionRaw  : HotField
  reservedBit17   : Bool
  generalFault    : Bool
  coldJunctionRaw : ColdField
  reservedBit3    : Bool
  shortToVcc      : Bool
  shortToGround   : Bool
  openCircuit     : Bool
  deriving DecidableEq, Repr

/-- The class an instruction belongs to: its row of the opcode table. -/
def Instr.frameClass : Instr → FrameClass
  | .frameOc .. => .oc
  | .frameScg .. => .scg
  | .frameScv .. => .scv
  | .frameRsv3 .. => .rsv3
  | .frameRsv17 .. => .rsv17
  | .frameGfu .. => .gfu
  | .frameNone .. => .none

/-- The values of the three input ports sampled at one rising edge of `clk`: the triple `(rst, in_valid, in_frame)`
of `10_state.md` R30 and `30_encoding.md` R74. Binary values only (`70_reset_and_hazards.md` R218). -/
structure Sample where
  rst     : Bool
  inValid : Bool
  inFrame : Word
  deriving DecidableEq, Repr, Inhabited

/-- The three stimuli a sample can be (`43_reading_step.md` R160, R164 to R166). -/
inductive Stimulus where
  | rst
  | idle
  | frame (w : Word)
  deriving DecidableEq, Repr

/-- The operands of the assembly form `FRAME hot=<n> cold=<m> [r17] [gf] [r3] [scv] [scg] [oc]`; what is omitted is
0 (`30_encoding.md` R74). -/
structure FrameArgs where
  hot  : Int := 0
  cold : Int := 0
  r17  : Bool := false
  gf   : Bool := false
  r3   : Bool := false
  scv  : Bool := false
  scg  : Bool := false
  oc   : Bool := false
  deriving DecidableEq, Repr

/-- One line of the stimulus notation (`30_encoding.md` R74): a program is a list of these. -/
inductive StimulusLine where
  | rst
  | idle
  | frameWord (w : Nat)
  | frameArgs (a : FrameArgs)
  deriving DecidableEq, Repr

/-- Why a sequence of serial units is no frame: `count` units where a frame is exactly four (`20_memory.md` R40, R42). -/
inductive DecodeError where
  | incompleteFrame (count : Nat)
  deriving DecidableEq, Repr

end Sys2Proof
end

