-- ==== Sys2Proof/Config.lean ====
section
/-! DEFINITION. The parameters of `00_scope.md` R7 that the machine uses as values, and the one free value of the
model. R7 leaves no parameter open: none of these is a run-time option. -/

namespace Sys2Proof

/-- `QNAN`, the pattern on every temperature output that is not valid (R7, decision D8; `43_reading_step.md` R163). -/
def Config.qnan : Word := 0x7FC00000

/-- `HOT_FRAC`: fractional bits of the hot field, unit 0.25 °C (R7, `42_temp_convert.md` R133). -/
def Config.hotFrac : Nat := 2

/-- `COLD_FRAC`: fractional bits of the cold field, unit 0.0625 °C (R7, `42_temp_convert.md` R134). -/
def Config.coldFrac : Nat := 4

/-- FREE VALUE (DESIGN CHOICE, safe, log entry 1): what the environment drives on `rst`, `in_valid` and `in_frame` at
an edge for which the state lists no sample. The spec leaves the inputs to the environment at every edge
(`43_reading_step.md` R160, `20_memory.md` R48), so nothing constrains it: it has no body, and a claim that holds
of it holds of every environment. The argument is the number of samples drawn from it so far. -/
opaque Config.freeSample : Nat → Sample

end Sys2Proof
end

