-- ==== Sys2Proof/Machine/Binary32.lean ====
section
/-! DEFINITION. IEEE 754 binary32 as far as `42_temp_convert.md` uses it: the layout (R135), the value of a pattern
(R136), the exact encoder `f32_exact` (R137) and the rounding encoder `f32_rne` (R141). Integer arithmetic only, but
for `val32`, which is a rational number. -/

namespace Sys2Proof.Machine

/-- The sign bit `S = b[31]` (R135). -/
def signBit (b : Word) : Bool := b.getLsbD 31

/-- The biased exponent `E = b[30:23]` (R135). -/
def biasedExp (b : Word) : Nat := (b.extractLsb' 23 8).toNat

/-- The trailing significand `T = b[22:0]` (R135). -/
def trailing (b : Word) : Nat := (b.extractLsb' 0 23).toNat

/-- The classes of binary32 patterns R136 names. -/
inductive F32Class where
  | zero | subnormal | normal | infinity | quietNan | signallingNan
  deriving DecidableEq, Repr

/-- The class of a pattern (R136). -/
def classify32 (b : Word) : F32Class :=
  if biasedExp b = 0 then
    if trailing b = 0 then .zero else .subnormal
  else if biasedExp b = 255 then
    if trailing b = 0 then .infinity
    else if b.getLsbD 22 then .quietNan
    else .signallingNan
  else .normal

/-- `val32(b)`, the real number a finite pattern stands for; nothing for an infinity or a NaN (`00_scope.md` R12, R136).
R136 gives the value of a normal number and of the zeros; the value of a subnormal is the standard's (PRESUMED, log
entry 4; the block never produces one, R147). -/
def val32 (b : Word) : Option ℚ :=
  let sign : ℚ := if signBit b then -1 else 1
  match classify32 b with
  | .zero => some 0
  | .normal => some (sign * 2 ^ ((biasedExp b : ℤ) - 127) * (1 + (trailing b : ℚ) / 2 ^ 23))
  | .subnormal => some (sign * 2 ^ (-126 : ℤ) * ((trailing b : ℚ) / 2 ^ 23))
  | .infinity | .quietNan | .signallingNan => none

/-- `S*2^31 + E*2^23 + T` (the last line of R137 and of R141). -/
def joinF32 (negative : Bool) (biased trail : Nat) : Word :=
  BitVec.ofNat 32 (negative.toNat * 2 ^ 31 + biased * 2 ^ 23 + trail)

/-- `f32_exact(i, k)`, the pattern of `i / 2^k` (R137). Its domain there: `|i| < 2^24`, `k ≥ 0`, and `|i|/2^k` zero or
in the normal range; the subtraction of `k` is exact on it. -/
def f32Exact (i : Int) (k : Nat) : Word :=
  if i = 0 then 0x00000000
  else
    let a := i.natAbs
    let p := a.log2
    joinF32 (decide (i < 0)) (p + 127 - k) ((a * 2 ^ (23 - p)) % 2 ^ 23)

/-- The `e` of R141: the integer with `den * 2^e <= a < den * 2^(e+1)`, that is `floor(log2(a/den))`; it may be
negative. The two logarithms give it or one more. -/
def rneExp (a den : Nat) : Int :=
  let d : Int := (a.log2 : Int) - (den.log2 : Int)
  if den * 2 ^ d.toNat ≤ a * 2 ^ (-d).toNat then d else d - 1

/-- The dividend of R141's `q = N div den`: `N = a * 2^(23 - e)`. -/
def rneNum (a : Nat) (e : Int) : Nat := a * 2 ^ (23 - e).toNat

/-- The divisor of R141's `q = N div den`. Where `e > 23` the `N` of R141 is no integer and the power of two stands
here instead; R141 passes no such argument. -/
def rneDen (den : Nat) (e : Int) : Nat := den * 2 ^ (e - 23).toNat

/-- Round to nearest, ties to even, of `num / den` to an integer (the line `if 2*r > den or …` of R141). -/
def roundNearestEven (num den : Nat) : Nat :=
  let q := num / den
  let r := num % den
  if 2 * r > den ∨ (2 * r = den ∧ q % 2 = 1) then q + 1 else q

/-- `f32_rne(num, den)`, the binary32 pattern nearest to `num/den` (R141). Its domain there: `num ≠ 0`, `den > 0`,
`|num/den|` in the normal range. -/
def f32Rne (num : Int) (den : Nat) : Word :=
  let a := num.natAbs
  let e := rneExp a den
  let q := roundNearestEven (rneNum a e) (rneDen den e)
  if q = 2 ^ 24 then joinF32 (decide (num < 0)) (e + 1 + 127).toNat 0
  else joinF32 (decide (num < 0)) (e + 127).toNat (q - 2 ^ 23)

end Sys2Proof.Machine
end

