-- ==== Sys2Proof/Decode.lean ====
section
/-! DEFINITION. From bits to fields and instructions, and back: the sub-block `frame_decoder` (`40_frame_decode.md`),
the frame classes (`30_encoding.md` R70), the encoder, and the packing of serial units (`20_memory.md` R40, R41).

Decoding a 32-bit word is TOTAL: "every 32-bit input produces a result; no input is rejected here" (R61, R91), so
`decode` answers an `Instr` and never an error. Only a sequence of units that is no frame is rejected, by name
(`decodeUnits`). -/

namespace Sys2Proof

/-! ## Bit-field extraction (`40_frame_decode.md`) -/

/-- `X.hot`: frame bits 31:18, unsigned (R93). -/
def xHot (w : Word) : HotField := w.extractLsb' 18 14

/-- `X.cold`: frame bits 15:4, unsigned (R94). -/
def xCold (w : Word) : ColdField := w.extractLsb' 4 12

/-- `X.r17`: frame bit 17 (R95). -/
def xR17 (w : Word) : Bool := w.getLsbD 17

/-- `X.gf`: frame bit 16 (R96). -/
def xGf (w : Word) : Bool := w.getLsbD 16

/-- `X.r3`: frame bit 3 (R97). -/
def xR3 (w : Word) : Bool := w.getLsbD 3

/-- `X.scv`: frame bit 2 (R98). -/
def xScv (w : Word) : Bool := w.getLsbD 2

/-- `X.scg`: frame bit 1 (R99). -/
def xScg (w : Word) : Bool := w.getLsbD 1

/-- `X.oc`: frame bit 0 (R100). -/
def xOc (w : Word) : Bool := w.getLsbD 0

/-- `Extract(frame)`: the eight projections together; checks and rejects nothing (R90, R91). -/
def extract (w : Word) : DecodedFields where
  hotJunctionRaw := xHot w
  reservedBit17 := xR17 w
  generalFault := xGf w
  coldJunctionRaw := xCold w
  reservedBit3 := xR3 w
  shortToVcc := xScv w
  shortToGround := xScg w
  openCircuit := xOc w

/-! ## The frame classes (`30_encoding.md` R70) -/

/-- The column "mask" of R70. -/
def FrameClass.mask : FrameClass → Word
  | .oc => 0x00000001
  | .scg => 0x00000003
  | .scv => 0x00000007
  | .rsv3 => 0x0000000F
  | .rsv17 => 0x0002000F
  | .gfu => 0x0003000F
  | .none => 0x0003000F

/-- The column "match" of R70. -/
def FrameClass.pattern : FrameClass → Word
  | .oc => 0x00000001
  | .scg => 0x00000002
  | .scv => 0x00000004
  | .rsv3 => 0x00000008
  | .rsv17 => 0x00020000
  | .gfu => 0x00010000
  | .none => 0x00000000

/-- The row's condition `(w AND mask) = match` (R70). -/
def FrameClass.holds (c : FrameClass) (w : Word) : Bool := w &&& c.mask == c.pattern

/-- The class of a frame: the row whose condition holds. The rows cover every word (R76), so the last row needs no
test of its own. -/
def classOf (w : Word) : FrameClass :=
  if FrameClass.oc.holds w then .oc
  else if FrameClass.scg.holds w then .scg
  else if FrameClass.scv.holds w then .scv
  else if FrameClass.rsv3.holds w then .rsv3
  else if FrameClass.rsv17.holds w then .rsv17
  else if FrameClass.gfu.holds w then .gfu
  else .none

/-- The decoder: the class picks the constructor, the fields the row leaves free are its operands (R67 to R70). -/
def decode (w : Word) : Instr :=
  match classOf w with
  | .oc => .frameOc (xHot w) (xR17 w) (xGf w) (xCold w) (xR3 w) (xScv w) (xScg w)
  | .scg => .frameScg (xHot w) (xR17 w) (xGf w) (xCold w) (xR3 w) (xScv w)
  | .scv => .frameScv (xHot w) (xR17 w) (xGf w) (xCold w) (xR3 w)
  | .rsv3 => .frameRsv3 (xHot w) (xR17 w) (xGf w) (xCold w)
  | .rsv17 => .frameRsv17 (xHot w) (xGf w) (xCold w)
  | .gfu => .frameGfu (xHot w) (xCold w)
  | .none => .frameNone (xHot w) (xCold w)

/-! ## The encoder -/

/-- The eight fields laid out in format `F32`, bit 31 first (R60). -/
def pack (f : DecodedFields) : Word :=
  f.hotJunctionRaw ++ BitVec.ofBool f.reservedBit17 ++ BitVec.ofBool f.generalFault ++ f.coldJunctionRaw ++
    BitVec.ofBool f.reservedBit3 ++ BitVec.ofBool f.shortToVcc ++ BitVec.ofBool f.shortToGround ++
    BitVec.ofBool f.openCircuit

/-- The fields of an instruction's frame: its operands, and the bits its row fixes (R70). -/
def Instr.fields : Instr → DecodedFields
  | .frameOc hot r17 gf cold r3 scv scg => ⟨hot, r17, gf, cold, r3, scv, scg, true⟩
  | .frameScg hot r17 gf cold r3 scv => ⟨hot, r17, gf, cold, r3, scv, true, false⟩
  | .frameScv hot r17 gf cold r3 => ⟨hot, r17, gf, cold, r3, true, false, false⟩
  | .frameRsv3 hot r17 gf cold => ⟨hot, r17, gf, cold, true, false, false, false⟩
  | .frameRsv17 hot gf cold => ⟨hot, true, gf, cold, false, false, false, false⟩
  | .frameGfu hot cold => ⟨hot, false, true, cold, false, false, false, false⟩
  | .frameNone hot cold => ⟨hot, false, false, cold, false, false, false, false⟩

/-- The encoder: the frame word of an instruction, written from the layout of R60 and the rows of R70. -/
def encode (i : Instr) : Word := pack i.fields

/-- `Assemble(n, m, r17, gf, r3, scv, scg, oc)`, the sum of R75; `%` on `Int` with a positive divisor is the
non-negative remainder R75 asks for. -/
def assemble (a : FrameArgs) : Word :=
  BitVec.ofInt 32
    ((a.hot % 16384) * 2 ^ 18 + a.r17.toInt * 2 ^ 17 + a.gf.toInt * 2 ^ 16 + (a.cold % 4096) * 2 ^ 4
      + a.r3.toInt * 2 ^ 3 + a.scv.toInt * 2 ^ 2 + a.scg.toInt * 2 ^ 1 + a.oc.toInt)

/-- Whether a triple is an encoding of a stimulus line (R74). What R74 calls "any value" is left open: several
triples encode one line. -/
def StimulusLine.encodes (l : StimulusLine) (p : Sample) : Bool :=
  match l with
  | .rst => p.rst
  | .idle => !p.rst && !p.inValid
  | .frameWord w => !p.rst && p.inValid && p.inFrame == BitVec.ofNat 32 w
  | .frameArgs a => !p.rst && p.inValid && p.inFrame == assemble a

/-! ## Serial units (`20_memory.md`) -/

/-- The packing of the four units of one exchange in transfer order, first unit in bits 31:24 (R40). It is the
collaborator's; the block sees the packed word. -/
def packUnits (b0 b1 b2 b3 : SerialUnit) : Word := b0 ++ b1 ++ b2 ++ b3

/-- One more bit on the wire, most significant bit first (R41). -/
def shiftIn (w : Word) (b : Bool) : Word := (w <<< 1) ||| BitVec.setWidth 32 (BitVec.ofBool b)

/-- The word a list of wire bits builds up, first bit on the wire first (R41). -/
def shiftInAll (bits : List Bool) : Word := bits.foldl shiftIn 0

/-- The bits of one unit in the order they are transferred: most significant first (R41). -/
def wireBits (b : SerialUnit) : List Bool :=
  [b.getLsbD 7, b.getLsbD 6, b.getLsbD 5, b.getLsbD 4, b.getLsbD 3, b.getLsbD 2, b.getLsbD 1, b.getLsbD 0]

/-- The decoder on any list of serial units: exactly four are a frame (R40); any other count is rejected by name
(R42: the interface has no frame of fewer than 32 bits; log entry 5). -/
def decodeUnits : List SerialUnit → Except DecodeError Instr
  | [b0, b1, b2, b3] => .ok (decode (packUnits b0 b1 b2 b3))
  | units => .error (.incompleteFrame units.length)

/-! ## The host's numbering of a table row -/

/-- The frame the opcode table's numbering gives: bit `k` of the number is frame bit `k`, and every bit from `nbits`
up is 0. The table numbers a row's bits as R8 numbers the frame's. -/
def tableWord (nbits w : Nat) : Word := BitVec.ofNat 32 (w % 2 ^ nbits)

/-- The four units of a frame in transfer order (R40). -/
def unitsOf (w : Word) : List SerialUnit :=
  [w.extractLsb' 24 8, w.extractLsb' 16 8, w.extractLsb' 8 8, w.extractLsb' 0 8]

/-- The instruction the decoder reads from the frame whose bits are `w` in the table's numbering; more than 32 bits
are no frame of this block (R60). -/
def decodeTableWord (nbits w : Nat) : Option Instr :=
  if nbits ≤ 32 then (decodeUnits (unitsOf (tableWord nbits w))).toOption else none

end Sys2Proof
end

