-- ==== Sys2Proof/Machine/Operands.lean ====
section
/-! DEFINITION. The operand forms: sign extension of the two numeric fields (`42_temp_convert.md` section 2) and the
exact integer numerators of the four temperatures (section 3). -/

namespace Sys2Proof.Machine

/-- `sext_N`, for every width: subtract `2^N` when the top bit is set (`00_scope.md` R9; one generic routine, R144). -/
def sext {N : Nat} (u : BitVec N) : Int :=
  if u.msb then (u.toNat : Int) - 2 ^ N else (u.toNat : Int)

/-- `SX14` (R131). -/
def sx14 (hot : HotField) : Int := sext hot

/-- `SX12` (R132). -/
def sx12 (cold : ColdField) : Int := sext cold

/-- The numerator `9*n + 640` of the hot Fahrenheit value over 20 (R150). -/
def hotFNum (n : Int) : Int := 9 * n + 640

/-- The numerator `9*m + 2560` of the cold Fahrenheit value over 80 (R150). -/
def coldFNum (m : Int) : Int := 9 * m + 2560

/-- The denominator of the hot Fahrenheit value (R150). -/
def hotFDen : Nat := 20

/-- The denominator of the cold Fahrenheit value (R150). -/
def coldFDen : Nat := 80

end Sys2Proof.Machine
end

