-- ==== Sys2Proof/Machine/Convert.lean ====
section
/-! DEFINITION. The sub-block `fixed_to_float_converter` (`42_temp_convert.md`). It reads the two numeric fields only and
runs for every frame, faulted or not (R122, R130). -/

namespace Sys2Proof.Machine

/-- The four result wires of the converter (R130). They are no state. -/
structure Wires where
  hotC  : Word
  hotF  : Word
  coldC : Word
  coldF : Word
  deriving DecidableEq, Repr

/-- `CVT.HC` (R139). -/
def cvtHC (n : Int) : Word := f32Exact n Config.hotFrac

/-- `CVT.CC` (R140). -/
def cvtCC (m : Int) : Word := f32Exact m Config.coldFrac

/-- `CVT.HF` (R142): one rounding of the exact value, from `n`. -/
def cvtHF (n : Int) : Word := f32Rne (hotFNum n) hotFDen

/-- `CVT.CF` (R143): one rounding of the exact value, from `m`. -/
def cvtCF (m : Int) : Word := f32Rne (coldFNum m) coldFDen

/-- `Convert(f)` (R130). -/
def convert (f : DecodedFields) : Wires where
  hotC := cvtHC (sx14 f.hotJunctionRaw)
  hotF := cvtHF (sx14 f.hotJunctionRaw)
  coldC := cvtCC (sx12 f.coldJunctionRaw)
  coldF := cvtCF (sx12 f.coldJunctionRaw)

end Sys2Proof.Machine
end

