-- ==== Sys2Proof/Machine/Flags.lean ====
section
/-! DEFINITION. The sub-block `fault_priority_classifier` (`41_fault_classify.md`): the fault code, the general-fault
mirror and the temperature-valid mark, and the source's five-valued category recovered from the code. -/

namespace Sys2Proof.Machine

/-- Code 0, no fault (`10_state.md` R27, decision D5). -/
def codeNone : FaultCodeWord := 0

/-- Code 1, open circuit (R27). -/
def codeOc : FaultCodeWord := 1

/-- Code 2, short to ground (R27). -/
def codeScg : FaultCodeWord := 2

/-- Code 3, short to supply (R27). -/
def codeScv : FaultCodeWord := 3

/-- Code 4, reserved-bit violation (R27). -/
def codeRsv : FaultCodeWord := 4

/-- Code 5, unclassified general fault (R27, R117). -/
def codeGfu : FaultCodeWord := 5

/-- `FaultCode(f)`: the fixed priority chain, first match wins (R110). -/
def faultCode (f : DecodedFields) : FaultCodeWord :=
  if f.openCircuit then codeOc
  else if f.shortToGround then codeScg
  else if f.shortToVcc then codeScv
  else if f.reservedBit17 || f.reservedBit3 then codeRsv
  else if f.generalFault then codeGfu
  else codeNone

/-- `gfm`, the mirror of bit 16, copied whatever the code (R118). -/
def generalFaultMirror (f : DecodedFields) : Bool := f.generalFault

/-- `tv`, set exactly when the code is `NONE` (R119). -/
def temperaturesValid (code : FaultCodeWord) : Bool := code == codeNone

/-- The source's five-valued `FaultStatus` (`00_scope.md` R14; R120). -/
inductive SourceCategory where
  | none | openCircuit | shortToGround | shortToVcc | reservedBitViolation
  deriving DecidableEq, Repr

/-- The source's five-step `classify`, as R110 quotes it: step 5 answers `None` for every frame steps 1 to 4 do not
catch. It is no output of the block; R120 is stated against it. -/
def sourceClassify (f : DecodedFields) : SourceCategory :=
  if f.openCircuit then .openCircuit
  else if f.shortToGround then .shortToGround
  else if f.shortToVcc then .shortToVcc
  else if f.reservedBit17 || f.reservedBit3 then .reservedBitViolation
  else .none

/-- The category a consumer recovers from `FC` (R120). Codes 6 and 7 name no category: no rule produces them
(`10_state.md` R27). -/
def recoverCategory (code : FaultCodeWord) : Option SourceCategory :=
  if code == codeNone || code == codeGfu then some .none
  else if code == codeOc then some .openCircuit
  else if code == codeScg then some .shortToGround
  else if code == codeScv then some .shortToVcc
  else if code == codeRsv then some .reservedBitViolation
  else Option.none

end Sys2Proof.Machine
end

