-- ==== Sys2Proof/Machine/State.lean ====
section
/-! DEFINITION. The state: the reading bank, which is "the whole architectural state" of the block (`10_state.md` R32),
and beside it the environment that drives the three inputs (`20_memory.md` R48). Plain data throughout.

There is no program counter, no memory, no trap register and no privilege mode: R11, R23, R28 and R29 say that a
model must not introduce any. -/

namespace Sys2Proof.Machine

/-- The reading bank: nine registers, 166 bits (`10_state.md` R32). -/
structure Bank where
  /-- `V`, 1 bit, reading valid (R24). -/
  v : Bool
  /-- `RAW`, 32 bits, the accepted frame (R20). -/
  raw : Word
  /-- `FC`, 3 bits, fault code; a bit vector because a consumer reads it as a number (R27). -/
  fc : FaultCodeWord
  /-- `GF`, 1 bit, general fault (R26). -/
  gf : Bool
  /-- `TV`, 1 bit, temperatures valid (R25). -/
  tv : Bool
  /-- `HOTC`, 32 bits, binary32 pattern of the hot junction in °C, or `QNAN` (R20, R22). -/
  hotC : Word
  /-- `HOTF`, 32 bits, the hot junction in °F, or `QNAN` (R20, R22). -/
  hotF : Word
  /-- `COLDC`, 32 bits, the cold junction in °C, or `QNAN` (R20, R22). -/
  coldC : Word
  /-- `COLDF`, 32 bits, the cold junction in °F, or `QNAN` (R20, R22). -/
  coldF : Word
  deriving DecidableEq, Repr

/-- The IDLE pattern, register by register (R32, column "IDLE value"; R33). -/
def Bank.idle : Bank where
  v := false
  raw := 0x00000000
  fc := 0
  gf := false
  tv := false
  hotC := Config.qnan
  hotF := Config.qnan
  coldC := Config.qnan
  coldF := Config.qnan

/-- The machine's state. `bank` is the block's; the other two fields are the model's own and stand for the
environment (log entry 1): the samples it will drive at the coming edges, and how many samples have been drawn from
the free value after that list ran out. -/
structure State where
  bank    : Bank
  pending : List Sample
  draws   : Nat
  deriving DecidableEq, Repr

/-- The stop reasons of the block: there are NONE. "A model's step function for this block returns a next state for
every input and has no fault or refusal outcome" (`60_exceptions.md` R180). The type has no constructor, so no
definition of the model can raise a fault; the fault categories of a frame are values of `FC`. -/
inductive Fault where
  deriving DecidableEq, Repr

/-- The refusals of the model. -/
inductive Refusal where
  /-- Raised only by an arm of `exec` whose instruction has no meaning yet; no arm does (safe). -/
  | notModelled (mnemonic : String)
  deriving DecidableEq, Repr

/-- Right after a rising edge with `rst = 1`: every register at its reset value, which is the IDLE pattern
(`10_state.md` R32, R34; `70_reset_and_hazards.md` R211). No sample is listed: what comes next is the environment's
(log entries 1 and 2). -/
def State.reset : State where
  bank := Bank.idle
  pending := []
  draws := 0

/-- Power-on: before the first edge every register holds any value, so the start state is any bank at all, an
argument (`10_state.md` R35; `93_implementation_defined.md` U4). -/
def State.powerOn (bank : Bank) (pending : List Sample) : State where
  bank := bank
  pending := pending
  draws := 0

end Sys2Proof.Machine
end

