-- ==== Sys2Proof/Machine/Ops.lean ====
section
/-! DEFINITION. The shared operations: assembling a reading (`43_reading_step.md` R161, R163), loading the bank (R160),
sampling the inputs, choosing the arm of the step, the two stimuli that are no frames, and what the output ports and a
consumer see (`10_state.md` R30, `43_reading_step.md` R162).

Taking an exception: the block has NO exception entry and no return from one (`60_exceptions.md` R180, R187, R188). A
fault is a value: the one shared operation of every frame, faulted or not, is `acceptFrame`. -/

namespace Sys2Proof.Machine

/-- A temperature output: the converter's wire when `tv`, else the pattern `QNAN` (R163). -/
def gate (tv : Bool) (wire : Word) : Word := if tv then wire else Config.qnan

/-- The bank that shows the reading of `w`: the classifier's three wires, and the converter's four, gated (R160 second
arm, R161). -/
def readingBank (w : Word) (code : FaultCodeWord) (gfm tv : Bool) (wires : Wires) : Bank where
  v := true
  raw := w
  fc := code
  gf := gfm
  tv := tv
  hotC := gate tv wires.hotC
  hotF := gate tv wires.hotF
  coldC := gate tv wires.coldC
  coldF := gate tv wires.coldF

/-- `Reading(w)` shown with `V = 1`: extract, then classify and convert side by side, then assemble (R161, R166). -/
def reading (w : Word) : Bank :=
  let f := extract w
  let code := faultCode f
  readingBank w code (generalFaultMirror f) (temperaturesValid code) (convert f)

/-- Load the whole bank at one edge (R160; all nine registers together, `20_memory.md` R44). It writes nothing else. -/
def State.load (b : Bank) (s : State) : State := { s with bank := b }

/-- What every accepted frame does: the bank shows the frame with the code, the mirror and the mark its class gives
(`41_fault_classify.md` R111 to R117). Nothing is saved, and control goes nowhere (`60_exceptions.md` R187). -/
def acceptFrame (f : DecodedFields) (code : FaultCodeWord) (gfm tv : Bool) (s : State) : State :=
  s.load (readingBank (pack f) code gfm tv (convert f))

/-! ## The environment's inputs -/

/-- The values of the three inputs at the next rising edge: the first listed sample, or a free one when none is listed
(log entry 1). -/
def State.nextSample (s : State) : Sample :=
  match s.pending with
  | p :: _ => p
  | [] => Config.freeSample s.draws

/-- The environment after the edge: the sample has been taken. The bank is not touched. -/
def State.consume (s : State) : State :=
  match s.pending with
  | _ :: ps => { s with pending := ps }
  | [] => { s with draws := s.draws + 1 }

/-- Put a sample at the next edge, in place of the one listed there. -/
def State.drive (p : Sample) (s : State) : State := { s with pending := p :: s.pending.tail }

/-- The arm of `STEP` a sample selects: `rst` has priority over `in_valid`; `in_frame` counts only with `in_valid`
(R160; `70_reset_and_hazards.md` R210). -/
def stimulusOf (p : Sample) : Stimulus :=
  if p.rst then .rst
  else if p.inValid then .frame p.inFrame
  else .idle

/-- Stimulus `RST`: the bank takes the reset values, which are the IDLE pattern (R164). -/
def execRst (s : State) : Host.Outcome State Fault Refusal := .next (s.load Bank.idle)

/-- Stimulus `IDLE`: the bank takes the IDLE pattern; a visible reading is withdrawn (R165). -/
def execIdle (s : State) : Host.Outcome State Fault Refusal := .next (s.load Bank.idle)

/-! ## What is seen from outside -/

/-- The output ports (`10_state.md` R30). -/
structure Outputs where
  outValid        : Bool
  outRawFrame     : Word
  outFaultCode    : FaultCodeWord
  outGeneralFault : Bool
  outTempValid    : Bool
  outHotC         : Word
  outHotF         : Word
  outColdC        : Word
  outColdF        : Word
  deriving DecidableEq, Repr

/-- Each output port is the register it is wired to (R30); nothing on an input reaches an output in the same cycle
(R160). -/
def State.outputs (s : State) : Outputs where
  outValid := s.bank.v
  outRawFrame := s.bank.raw
  outFaultCode := s.bank.fc
  outGeneralFault := s.bank.gf
  outTempValid := s.bank.tv
  outHotC := s.bank.hotC
  outHotF := s.bank.hotF
  outColdC := s.bank.coldC
  outColdF := s.bank.coldF

/-- The source's `ThermocoupleReading` (`43_reading_step.md` R162): the four temperatures are present or absent together,
and `fault` is the category with the general-fault mirror. -/
structure ThermocoupleReading where
  temperatures : Option Wires
  fault        : Option SourceCategory
  generalFault : Bool
  rawFrame     : Word
  deriving DecidableEq, Repr

/-- What a consumer that obeys `60_exceptions.md` R193 (a) and (b) takes from the ports: nothing while `out_valid = 0`, and
no temperature while `out_temp_valid = 0`. -/
def Outputs.consumed (o : Outputs) : Option ThermocoupleReading :=
  if o.outValid then
    some
      { temperatures := if o.outTempValid then some ⟨o.outHotC, o.outHotF, o.outColdC, o.outColdF⟩ else none
        fault := recoverCategory o.outFaultCode
        generalFault := o.outGeneralFault
        rawFrame := o.outRawFrame }
  else none

end Sys2Proof.Machine
end

