-- ==== Sys2Proof/Machine/Frame.lean ====
section
/-! DEFINITION. The meanings of the seven frame classes, one definition each (`41_fault_classify.md` section 2). Each states the
code, the mirror and the mark its own rule states, and the frame's fields with the bits its row fixes; the rest is
`acceptFrame`. None of them uses the priority chain `faultCode`: that the two agree is a claim (R70 against R110). -/

namespace Sys2Proof.Machine

/-- `FRAME.OC`: `code = 1; gfm = w[16]; tv = 0` (R111). -/
def execFrameOc (hot : HotField) (r17 gf : Bool) (cold : ColdField) (r3 scv scg : Bool) (s : State) :
    Host.Outcome State Fault Refusal :=
  .next (acceptFrame ⟨hot, r17, gf, cold, r3, scv, scg, true⟩ codeOc gf false s)

/-- `FRAME.SCG`: `code = 2; gfm = w[16]; tv = 0` (R112). -/
def execFrameScg (hot : HotField) (r17 gf : Bool) (cold : ColdField) (r3 scv : Bool) (s : State) :
    Host.Outcome State Fault Refusal :=
  .next (acceptFrame ⟨hot, r17, gf, cold, r3, scv, true, false⟩ codeScg gf false s)

/-- `FRAME.SCV`: `code = 3; gfm = w[16]; tv = 0` (R113). -/
def execFrameScv (hot : HotField) (r17 gf : Bool) (cold : ColdField) (r3 : Bool) (s : State) :
    Host.Outcome State Fault Refusal :=
  .next (acceptFrame ⟨hot, r17, gf, cold, r3, true, false, false⟩ codeScv gf false s)

/-- `FRAME.RSV3`: `code = 4; gfm = w[16]; tv = 0` (R114). -/
def execFrameRsv3 (hot : HotField) (r17 gf : Bool) (cold : ColdField) (s : State) : Host.Outcome State Fault Refusal :=
  .next (acceptFrame ⟨hot, r17, gf, cold, true, false, false, false⟩ codeRsv gf false s)

/-- `FRAME.RSV17`: `code = 4; gfm = w[16]; tv = 0` (R115). -/
def execFrameRsv17 (hot : HotField) (gf : Bool) (cold : ColdField) (s : State) : Host.Outcome State Fault Refusal :=
  .next (acceptFrame ⟨hot, true, gf, cold, false, false, false, false⟩ codeRsv gf false s)

/-- `FRAME.GFU`: `code = 5; gfm = 1; tv = 0` (R117). -/
def execFrameGfu (hot : HotField) (cold : ColdField) (s : State) : Host.Outcome State Fault Refusal :=
  .next (acceptFrame ⟨hot, false, true, cold, false, false, false, false⟩ codeGfu true false s)

/-- `FRAME.NONE`: `code = 0; gfm = 0; tv = 1`, the only class whose numeric registers carry temperatures (R116). -/
def execFrameNone (hot : HotField) (cold : ColdField) (s : State) : Host.Outcome State Fault Refusal :=
  .next (acceptFrame ⟨hot, false, false, cold, false, false, false, false⟩ codeNone false true s)

end Sys2Proof.Machine
end

