-- ==== Sys2Proof/Machine/Dispatch.lean ====
section
/-! DEFINITION. One arm per constructor of `Instr`, in the order of the opcode table. -/

namespace Sys2Proof.Machine

def exec (i : Instr) (s : State) : Host.Outcome State Fault Refusal :=
  match i with
  | .frameOc hot r17 gf cold r3 scv scg => Sys2Proof.Machine.execFrameOc hot r17 gf cold r3 scv scg s
  | .frameScg hot r17 gf cold r3 scv => Sys2Proof.Machine.execFrameScg hot r17 gf cold r3 scv s
  | .frameScv hot r17 gf cold r3 => Sys2Proof.Machine.execFrameScv hot r17 gf cold r3 s
  | .frameRsv3 hot r17 gf cold => Sys2Proof.Machine.execFrameRsv3 hot r17 gf cold s
  | .frameRsv17 hot gf cold => Sys2Proof.Machine.execFrameRsv17 hot gf cold s
  | .frameGfu hot cold => Sys2Proof.Machine.execFrameGfu hot cold s
  | .frameNone hot cold => Sys2Proof.Machine.execFrameNone hot cold s

end Sys2Proof.Machine
end

