-- ==== Sys2Proof/Machine/Step.lean ====
section
/-! DEFINITION. The step: one rising edge of `clk` (`43_reading_step.md` R160). Nothing advances but time (`10_state.md` R23). -/

namespace Sys2Proof.Machine

/-- `STEP(rst, in_valid, in_frame)`: take the sample of this edge, then run the arm it selects (R160). The frame is
decoded at the edge it is sampled at; nothing stores it first (`20_memory.md` R43, R50). -/
def step (s : State) : Host.Outcome State Fault Refusal :=
  match stimulusOf s.nextSample with
  | .rst => execRst s.consume
  | .idle => execIdle s.consume
  | .frame w => exec (decode w) s.consume

/-- The state in which the frame of a table row is what the environment offers at the next edge: `rst = 0`,
`in_valid = 1`, `in_frame` the row's word (`00_scope.md` R5; R166; log entry 2). -/
def State.withFetchWord (s : State) (nbits w : Nat) : State :=
  s.drive { rst := false, inValid := true, inFrame := tableWord nbits w }

end Sys2Proof.Machine
end

