-- ==== Sys2Proof/Safety.lean ====
section
/-! DEFINITION. The terms claims use: the invariants of `10_state.md` R36, and the banks of a run (`43_reading_step.md` R169). -/

namespace Sys2Proof.Machine

/-- The invariants (a) to (g) of R36, of every bank reached after at least one rising edge. -/
structure Bank.Consistent (b : Bank) : Prop where
  idle_of_not_valid : b.v = false → b = Bank.idle
  reading_of_valid : b.v = true → b = reading b.raw
  valid_of_tempValid : b.tv = true → b.v = true ∧ b.fc = 0
  qnan_of_not_tempValid :
    b.tv = false → b.hotC = 0x7FC00000 ∧ b.hotF = 0x7FC00000 ∧ b.coldC = 0x7FC00000 ∧ b.coldF = 0x7FC00000
  code_le_five : b.fc.toNat ≤ 5
  generalFault_of_gfu : b.fc = 5 → b.gf = true
  generalFault_eq_bit16 : b.v = true → b.gf = b.raw.getLsbD 16

/-- The banks after each of the next `k` rising edges: "the whole sequence of banks" of a run (R169). It would end
early at a fault or a refusal. -/
def runBanks : Nat → State → List Bank
  | 0, _ => []
  | k + 1, s =>
    match step s with
    | .next t => t.bank :: runBanks k t
    | .fault _ => []
    | .refused _ => []

end Sys2Proof.Machine
end

