-- ==== Sys2Proof/WellFormed.lean ====
section
/-! DEFINITION. Well-formedness of what a reader writes: the lines of the stimulus notation (`30_encoding.md` R74).

An `Instr` needs no check: every operand is a bit field of exactly the width the row gives it, every value of the
field is legal in every class (R61, R72: no frame value is illegal), and the fixed bits stand in the constructor. So
EVERY term of `Instr` is well formed, and statements about "every well-formed instruction" quantify over `Instr`.
A `Sample` needs none either: R218 admits binary inputs only, and its fields are binary. -/

namespace Sys2Proof

/-- The operand ranges of the assembly form: `<n>` in `-8192 .. 8191`, `<m>` in `-2048 .. 2047` (R74). -/
def FrameArgs.wellFormed (a : FrameArgs) : Bool :=
  decide (-8192 ≤ a.hot) && decide (a.hot ≤ 8191) && decide (-2048 ≤ a.cold) && decide (a.cold ≤ 2047)

/-- A stimulus line is well formed when its frame word is "a 32-bit numeral" or its operands are in range (R74). -/
def StimulusLine.wellFormed : StimulusLine → Bool
  | .rst => true
  | .idle => true
  | .frameWord w => decide (w < 2 ^ 32)
  | .frameArgs a => a.wellFormed

end Sys2Proof
end

