-- ==== Sys2Proof/Certificates/Slice0/Obligations.lean ====
section
/-! DEFINITION. The statements for the provers, in the order of the spec's files. `OBLIGATIONS.json` gives each its rule.

Where a statement writes a register's value as a numeral (`0x7FC00000`, a fault code), the numeral is the rule's, so
that a wrong constant in the model makes the statement false.

`pending` and `draws` are the model's own fields and no register of the block (log entry 1, DESIGN CHOICE). Where a next
state is written `{ s with bank := … }`, what it says of these two is the model's choice and no rule's. -/

open Sys2Proof Sys2Proof.Machine

/-! ## Encoding: fields, classes, round trips -/

/-- Seven words written out bit by bit from the rows of `30_encoding.md` R70 (fields `h r g c q v s o`), one for each
class, with the instruction each stands for. -/
def Obligations.WrittenOutWordsDecode : Prop :=
  decode 0b10100101101001_0_1_101001011010_0_1_0_1 = .frameOc 10601 false true 2650 false true false ∧
  decode 0b01011010010110_1_0_010110100101_1_0_1_0 = .frameScg 5782 true false 1445 true false ∧
  decode 0b00111110100000_0_1_000101100000_0_1_0_0 = .frameScv 4000 false true 352 false ∧
  decode 0b00010010001101_0_0_010101100111_1_0_0_0 = .frameRsv3 1165 false false 1383 ∧
  decode 0b00000001100100_1_0_000110010000_0_0_0_0 = .frameRsv17 100 false 400 ∧
  decode 0b00000001100100_0_1_000110010000_0_0_0_0 = .frameGfu 100 400 ∧
  decode 0b11111110011100_0_0_111101100000_0_0_0_0 = .frameNone 16284 3936

/-- `X.hot` and `X.cold` are the unsigned quotients R93 and R94 give, with their ranges. -/
def Obligations.NumericFieldsAreUnsignedQuotients : Prop :=
  ∀ w : Word,
    ((extract w).hotJunctionRaw.toNat = w.toNat / 2 ^ 18 ∧ (extract w).hotJunctionRaw.toNat ≤ 16383) ∧
    ((extract w).coldJunctionRaw.toNat = w.toNat / 2 ^ 4 % 2 ^ 12 ∧ (extract w).coldJunctionRaw.toNat ≤ 4095)

/-- No bit is lost or counted twice: the eight fields add up to the frame, they are `Assemble`'s operands, and they
determine the frame (R101). -/
def Obligations.FrameIsTheSumOfItsFields : Prop :=
  (∀ w : Word,
    let f := extract w
    w.toNat = f.hotJunctionRaw.toNat * 2 ^ 18 + f.reservedBit17.toNat * 2 ^ 17 + f.generalFault.toNat * 2 ^ 16
      + f.coldJunctionRaw.toNat * 2 ^ 4 + f.reservedBit3.toNat * 2 ^ 3 + f.shortToVcc.toNat * 2 ^ 2
      + f.shortToGround.toNat * 2 + f.openCircuit.toNat) ∧
  (∀ w : Word,
    let f := extract w
    assemble ⟨sx14 f.hotJunctionRaw, sx12 f.coldJunctionRaw, f.reservedBit17, f.generalFault, f.reservedBit3,
      f.shortToVcc, f.shortToGround, f.openCircuit⟩ = w) ∧
  (∀ w w' : Word, extract w = extract w' → w = w')

/-- `Assemble` is the sum of R75 without wrap-around, it is undone by extraction and sign extension, and it gives the
rule's worked example. -/
def Obligations.AssembledFrameGivesItsOperandsBack : Prop :=
  (∀ a : FrameArgs, a.wellFormed = true →
    ((assemble a).toNat : ℤ) = (a.hot % 16384) * 2 ^ 18 + a.r17.toInt * 2 ^ 17 + a.gf.toInt * 2 ^ 16
      + (a.cold % 4096) * 2 ^ 4 + a.r3.toInt * 2 ^ 3 + a.scv.toInt * 2 ^ 2 + a.scg.toInt * 2 + a.oc.toInt ∧
    sx14 (extract (assemble a)).hotJunctionRaw = a.hot ∧
    sx12 (extract (assemble a)).coldJunctionRaw = a.cold ∧
    (extract (assemble a)).reservedBit17 = a.r17 ∧ (extract (assemble a)).generalFault = a.gf ∧
    (extract (assemble a)).reservedBit3 = a.r3 ∧ (extract (assemble a)).shortToVcc = a.scv ∧
    (extract (assemble a)).shortToGround = a.scg ∧ (extract (assemble a)).openCircuit = a.oc) ∧
  assemble { hot := -1 } = 0xFFFC0000

/-- The seven rows of R70 are pairwise disjoint and cover every word, and the decoder picks the row that holds (R76). -/
def Obligations.FrameClassesPartitionTheWords : Prop :=
  ∀ w : Word, (∃! c : FrameClass, w &&& c.mask = c.pattern) ∧
    w &&& (decode w).frameClass.mask = (decode w).frameClass.pattern

/-- Every instruction, with every operand at every value, is what its own encoding decodes to. -/
def Obligations.DecodeEncodeRoundTrip : Prop :=
  ∀ i : Instr, decode (encode i) = i

/-- Every one of the 2^32 words is the encoding of the instruction it decodes to: no bit of a frame is dropped. -/
def Obligations.EncodeDecodeRoundTrip : Prop :=
  ∀ w : Word, encode (decode w) = w

/-- The mask and match columns of R70 select exactly the fault code that the priority chain of R110 gives. -/
def Obligations.ClassRowsSelectTheChainsCode : Prop :=
  ∀ w : Word,
    (w &&& 0x00000001 = 0x00000001 → faultCode (extract w) = 1) ∧
    (w &&& 0x00000003 = 0x00000002 → faultCode (extract w) = 2) ∧
    (w &&& 0x00000007 = 0x00000004 → faultCode (extract w) = 3) ∧
    (w &&& 0x0000000F = 0x00000008 → faultCode (extract w) = 4) ∧
    (w &&& 0x0002000F = 0x00020000 → faultCode (extract w) = 4) ∧
    (w &&& 0x0003000F = 0x00010000 → faultCode (extract w) = 5) ∧
    (w &&& 0x0003000F = 0x00000000 → faultCode (extract w) = 0)

/-- The four units of an exchange fill the frame from the top, and their wire bits, most significant first, build up the
same word; the first bit on the wire is bit 31 (R40, R41). -/
def Obligations.SerialUnitsFillTheFrameFromTheTop : Prop :=
  (∀ b0 b1 b2 b3 : SerialUnit,
    (packUnits b0 b1 b2 b3).extractLsb' 24 8 = b0 ∧ (packUnits b0 b1 b2 b3).extractLsb' 16 8 = b1 ∧
    (packUnits b0 b1 b2 b3).extractLsb' 8 8 = b2 ∧ (packUnits b0 b1 b2 b3).extractLsb' 0 8 = b3 ∧
    shiftInAll (wireBits b0 ++ wireBits b1 ++ wireBits b2 ++ wireBits b3) = packUnits b0 b1 b2 b3) ∧
  (∀ bits : List Bool, bits.length = 32 →
    ∀ k : Nat, k < 32 → (shiftInAll bits).getLsbD (31 - k) = bits.getD k false)

/-! ## The classifier -/

/-- The decision table of R121, row by row, over all combinations of the six deciding bits. -/
def Obligations.FaultDecisionTable : Prop :=
  ∀ f : DecodedFields,
    generalFaultMirror f = f.generalFault ∧
    (f.openCircuit = true → faultCode f = 1 ∧ temperaturesValid (faultCode f) = false) ∧
    (f.openCircuit = false → f.shortToGround = true →
      faultCode f = 2 ∧ temperaturesValid (faultCode f) = false) ∧
    (f.openCircuit = false → f.shortToGround = false → f.shortToVcc = true →
      faultCode f = 3 ∧ temperaturesValid (faultCode f) = false) ∧
    (f.openCircuit = false → f.shortToGround = false → f.shortToVcc = false → f.reservedBit3 = true →
      faultCode f = 4 ∧ temperaturesValid (faultCode f) = false) ∧
    (f.openCircuit = false → f.shortToGround = false → f.shortToVcc = false → f.reservedBit3 = false →
      f.reservedBit17 = true → faultCode f = 4 ∧ temperaturesValid (faultCode f) = false) ∧
    (f.openCircuit = false → f.shortToGround = false → f.shortToVcc = false → f.reservedBit3 = false →
      f.reservedBit17 = false → f.generalFault = true →
      faultCode f = 5 ∧ temperaturesValid (faultCode f) = false) ∧
    (f.openCircuit = false → f.shortToGround = false → f.shortToVcc = false → f.reservedBit3 = false →
      f.reservedBit17 = false → f.generalFault = false →
      faultCode f = 0 ∧ temperaturesValid (faultCode f) = true)

/-- The source's five-valued category and its general-fault flag are recovered from the registers an accepted frame
leaves, and "general fault with category `None`" is exactly code 5 (R120). -/
def Obligations.SourceCategoryIsRecovered : Prop :=
  ∀ (w : Word) (s : State), ∃ t : State, exec (decode w) s = .next t ∧
    recoverCategory t.bank.fc = some (sourceClassify (extract w)) ∧
    t.bank.gf = w.getLsbD 16 ∧
    ((t.bank.gf = true ∧ sourceClassify (extract w) = .none) ↔ t.bank.fc = 5)

/-- The classifier never looks at the numeric fields, and the converter never at the status and reserved bits (R122,
R130). -/
def Obligations.ClassifierAndConverterAreIndependent : Prop :=
  ∀ f g : DecodedFields,
    (f.reservedBit17 = g.reservedBit17 → f.generalFault = g.generalFault → f.reservedBit3 = g.reservedBit3 →
      f.shortToVcc = g.shortToVcc → f.shortToGround = g.shortToGround → f.openCircuit = g.openCircuit →
      faultCode f = faultCode g ∧ generalFaultMirror f = generalFaultMirror g) ∧
    (f.hotJunctionRaw = g.hotJunctionRaw → f.coldJunctionRaw = g.coldJunctionRaw → convert f = convert g)

/-! ## The converter -/

/-- `SX14` and `SX12` with their ranges (R131, R132). -/
def Obligations.SignExtensionSubtractsTheWidth : Prop :=
  (∀ hot : HotField,
    sx14 hot = (if hot.toNat ≥ 8192 then (hot.toNat : ℤ) - 16384 else (hot.toNat : ℤ)) ∧
    -8192 ≤ sx14 hot ∧ sx14 hot ≤ 8191) ∧
  (∀ cold : ColdField,
    sx12 cold = (if cold.toNat ≥ 2048 then (cold.toNat : ℤ) - 4096 else (cold.toNat : ℤ)) ∧
    -2048 ≤ sx12 cold ∧ sx12 cold ≤ 2047)

/-- One routine for every width: subtracting `2^N` is, in any width `W ≥ N`, setting the bits `W-1 .. N`; the two field
widths are instances (R144). -/
def Obligations.SignExtensionIsGenericInTheWidth : Prop :=
  (∀ (N W : Nat) (u : BitVec N), 1 ≤ N → N ≤ W →
    BitVec.ofInt W (sext u) =
      if u.getLsbD (N - 1) then u.setWidth W ||| (BitVec.allOnes W <<< N) else u.setWidth W) ∧
  (∀ hot : HotField, sx14 hot = sext hot) ∧ (∀ cold : ColdField, sx12 cold = sext cold)

/-- Every intermediate integer of the converter is in the range R145 states, and two's-complement arithmetic of any width
from 18 bits (hot) and 16 bits (cold) gives the same numerators as the mathematical integers. -/
def Obligations.NumeratorsNeverOverflow : Prop :=
  (∀ hot : HotField,
    -73728 ≤ 9 * sx14 hot ∧ 9 * sx14 hot ≤ 73719 ∧ -73088 ≤ hotFNum (sx14 hot) ∧ hotFNum (sx14 hot) ≤ 74359 ∧
    ∀ W : Nat, 18 ≤ W →
      (BitVec.ofNat W 9 * hot.signExtend W + BitVec.ofNat W 640).toInt = hotFNum (sx14 hot)) ∧
  (∀ cold : ColdField,
    -18432 ≤ 9 * sx12 cold ∧ 9 * sx12 cold ≤ 18423 ∧ -15872 ≤ coldFNum (sx12 cold) ∧ coldFNum (sx12 cold) ≤ 20983 ∧
    ∀ W : Nat, 16 ≤ W →
      (BitVec.ofNat W 9 * cold.signExtend W + BitVec.ofNat W 2560).toInt = coldFNum (sx12 cold))

/-- `f32_exact` is exact on the whole domain R137 gives it, and zero is `+0`. -/
def Obligations.ExactEncoderLosesNothing : Prop :=
  (∀ (i : ℤ) (k : Nat), i.natAbs < 2 ^ 24 → (i = 0 ∨ (2 : ℚ) ^ (-126 : ℤ) ≤ |(i : ℚ) / 2 ^ k|) →
    val32 (f32Exact i k) = some ((i : ℚ) / 2 ^ k)) ∧
  (∀ k : Nat, f32Exact 0 k = 0x00000000)

/-- `f32_rne` gives the binary32 number nearest to `num/den`; at a tie the one with the even significand (R141). The upper
bound is strict: at `2^128 - 2^103` itself the rule's algorithm carries into exponent 255, which is no number (log entry
6). The value of a subnormal, with which the result is compared as well, is PRESUMED (log entry 4). -/
def Obligations.RoundingEncoderIsNearestTiesToEven : Prop :=
  ∀ (num : ℤ) (den : Nat), num ≠ 0 → 0 < den →
    (2 : ℚ) ^ (-126 : ℤ) ≤ |(num : ℚ) / den| → |(num : ℚ) / den| < 2 ^ 128 - 2 ^ 103 →
    ∃ x : ℚ, val32 (f32Rne num den) = some x ∧ ∀ (b : Word) (y : ℚ), val32 b = some y →
      |x - (num : ℚ) / den| ≤ |y - (num : ℚ) / den| ∧
      (|x - (num : ℚ) / den| = |y - (num : ℚ) / den| → y ≠ x → trailing (f32Rne num den) % 2 = 0)

/-- Every Celsius result is the exact value of its field, `n/4` or `m/16`, and zero is `+0` (R138, R139, R140). -/
def Obligations.CelsiusResultsAreExact : Prop :=
  (∀ f : DecodedFields,
    val32 (convert f).hotC = some ((sx14 f.hotJunctionRaw : ℚ) / 4) ∧
    val32 (convert f).coldC = some ((sx12 f.coldJunctionRaw : ℚ) / 16)) ∧
  (∀ f : DecodedFields, sx14 f.hotJunctionRaw = 0 → (convert f).hotC = 0x00000000) ∧
  (∀ f : DecodedFields, sx12 f.coldJunctionRaw = 0 → (convert f).coldC = 0x00000000)

/-- Every Fahrenheit result is THE binary32 number nearest to `C*9/5 + 32` for the exact Celsius value: every other
pattern with a value is strictly farther, so no tie ever occurs (R142, R143, R146). The value of a subnormal, with which
the result is compared as well, is PRESUMED (log entry 4). -/
def Obligations.FahrenheitResultsAreTheUniqueNearest : Prop :=
  ∀ f : DecodedFields,
    (∃ x : ℚ, val32 (convert f).hotF = some x ∧ ∀ (b : Word) (y : ℚ), val32 b = some y → b ≠ (convert f).hotF →
      |x - ((sx14 f.hotJunctionRaw : ℚ) / 4 * (9 / 5) + 32)| < |y - ((sx14 f.hotJunctionRaw : ℚ) / 4 * (9 / 5) + 32)|) ∧
    (∃ x : ℚ, val32 (convert f).coldF = some x ∧ ∀ (b : Word) (y : ℚ), val32 b = some y → b ≠ (convert f).coldF →
      |x - ((sx12 f.coldJunctionRaw : ℚ) / 16 * (9 / 5) + 32)| < |y - ((sx12 f.coldJunctionRaw : ℚ) / 16 * (9 / 5) + 32)|)

/-- A Fahrenheit result is exact exactly when 5 divides the operand (R146), and is never farther from the formula's value
than `1/10240` °F (hot) and `1/81920` °F (cold), the figures of `93_implementation_defined.md` U1. -/
def Obligations.FahrenheitErrorIsBounded : Prop :=
  ∀ f : DecodedFields,
    (val32 (convert f).hotF = some ((9 * sx14 f.hotJunctionRaw + 640 : ℚ) / 20) ↔ (5 : ℤ) ∣ sx14 f.hotJunctionRaw) ∧
    (val32 (convert f).coldF = some ((9 * sx12 f.coldJunctionRaw + 2560 : ℚ) / 80) ↔ (5 : ℤ) ∣ sx12 f.coldJunctionRaw) ∧
    (∃ x : ℚ, val32 (convert f).hotF = some x ∧ |x - (9 * sx14 f.hotJunctionRaw + 640 : ℚ) / 20| ≤ 1 / 10240) ∧
    (∃ x : ℚ, val32 (convert f).coldF = some x ∧ |x - (9 * sx12 f.coldJunctionRaw + 2560 : ℚ) / 80| ≤ 1 / 81920)

/-- What the converter can output: Celsius results are `+0` or normal, Fahrenheit results are normal, each with the biased
exponents R147 lists; so never a NaN, an infinity, a subnormal or negative zero. -/
def Obligations.ConverterOutputClasses : Prop :=
  ∀ f : DecodedFields,
    ((convert f).hotC = 0x00000000 ∨
      classify32 (convert f).hotC = .normal ∧ 125 ≤ biasedExp (convert f).hotC ∧ biasedExp (convert f).hotC ≤ 138) ∧
    ((convert f).coldC = 0x00000000 ∨
      classify32 (convert f).coldC = .normal ∧ 123 ≤ biasedExp (convert f).coldC ∧ biasedExp (convert f).coldC ≤ 134) ∧
    (classify32 (convert f).hotF = .normal ∧ 122 ≤ biasedExp (convert f).hotF ∧ biasedExp (convert f).hotF ≤ 138) ∧
    (classify32 (convert f).coldF = .normal ∧ 122 ≤ biasedExp (convert f).coldF ∧ biasedExp (convert f).coldF ≤ 135)

/-- Each of the four maps from the signed operand to the value of the result is strictly increasing (R147). -/
def Obligations.ConversionsAreStrictlyIncreasing : Prop :=
  (∀ f g : DecodedFields, sx14 f.hotJunctionRaw < sx14 g.hotJunctionRaw →
    (∃ x y : ℚ, val32 (convert f).hotC = some x ∧ val32 (convert g).hotC = some y ∧ x < y) ∧
    (∃ x y : ℚ, val32 (convert f).hotF = some x ∧ val32 (convert g).hotF = some y ∧ x < y)) ∧
  (∀ f g : DecodedFields, sx12 f.coldJunctionRaw < sx12 g.coldJunctionRaw →
    (∃ x y : ℚ, val32 (convert f).coldC = some x ∧ val32 (convert g).coldC = some y ∧ x < y) ∧
    (∃ x y : ℚ, val32 (convert f).coldF = some x ∧ val32 (convert g).coldF = some y ∧ x < y))

/-- Every corner and example pattern that R139, R140, R142 and R143 list for an operand: eight, six, seven and seven. -/
def Obligations.ConversionCornerPatterns : Prop :=
  (cvtHC 0 = 0x00000000 ∧ cvtHC 8191 = 0x44FFF800 ∧ cvtHC (-1) = 0xBE800000 ∧ cvtHC (-8192) = 0xC5000000 ∧
    cvtHC 1 = 0x3E800000 ∧ cvtHC 2 = 0x3F000000 ∧ cvtHC 3 = 0x3F400000 ∧ cvtHC 100 = 0x41C80000) ∧
  (cvtCC 0 = 0x00000000 ∧ cvtCC 2047 = 0x42FFE000 ∧ cvtCC (-2048) = 0xC3000000 ∧ cvtCC (-1) = 0xBD800000 ∧
    cvtCC 1 = 0x3D800000 ∧ cvtCC 400 = 0x41C80000) ∧
  (cvtHF 0 = 0x42000000 ∧ cvtHF 8191 = 0x45685F33 ∧ cvtHF (-8192) = 0xC5646666 ∧ cvtHF (-1) = 0x41FC6666 ∧
    cvtHF (-71) = 0x3D4CCCCD ∧ cvtHF (-160) = 0xC2200000 ∧ cvtHF 100 = 0x429A0000) ∧
  (cvtCF 0 = 0x42000000 ∧ cvtCF 2047 = 0x438324CD ∧ cvtCF (-2048) = 0xC3466666 ∧ cvtCF (-1) = 0x41FF199A ∧
    cvtCF (-284) = 0x3D4CCCCD ∧ cvtCF (-640) = 0xC2200000 ∧ cvtCF 352 = 0x428F3333)

/-! ## The seven frame classes -/

/-- `FRAME.OC` (R111): the class's words, and the whole next state. -/
def Obligations.OpenCircuitFrame : Prop :=
  ∀ (w : Word) (s : State), w &&& 0x00000001 = 0x00000001 →
    (decode w).frameClass = .oc ∧
    exec (decode w) s = .next { s with bank :=
      { v := true, raw := w, fc := 1, gf := w.getLsbD 16, tv := false,
        hotC := 0x7FC00000, hotF := 0x7FC00000, coldC := 0x7FC00000, coldF := 0x7FC00000 } }

/-- `FRAME.SCG` (R112). -/
def Obligations.ShortToGroundFrame : Prop :=
  ∀ (w : Word) (s : State), w &&& 0x00000003 = 0x00000002 →
    (decode w).frameClass = .scg ∧
    exec (decode w) s = .next { s with bank :=
      { v := true, raw := w, fc := 2, gf := w.getLsbD 16, tv := false,
        hotC := 0x7FC00000, hotF := 0x7FC00000, coldC := 0x7FC00000, coldF := 0x7FC00000 } }

/-- `FRAME.SCV` (R113). -/
def Obligations.ShortToSupplyFrame : Prop :=
  ∀ (w : Word) (s : State), w &&& 0x00000007 = 0x00000004 →
    (decode w).frameClass = .scv ∧
    exec (decode w) s = .next { s with bank :=
      { v := true, raw := w, fc := 3, gf := w.getLsbD 16, tv := false,
        hotC := 0x7FC00000, hotF := 0x7FC00000, coldC := 0x7FC00000, coldF := 0x7FC00000 } }

/-- `FRAME.RSV3` (R114). -/
def Obligations.ReservedBitThreeFrame : Prop :=
  ∀ (w : Word) (s : State), w &&& 0x0000000F = 0x00000008 →
    (decode w).frameClass = .rsv3 ∧
    exec (decode w) s = .next { s with bank :=
      { v := true, raw := w, fc := 4, gf := w.getLsbD 16, tv := false,
        hotC := 0x7FC00000, hotF := 0x7FC00000, coldC := 0x7FC00000, coldF := 0x7FC00000 } }

/-- `FRAME.RSV17` (R115). -/
def Obligations.ReservedBitSeventeenFrame : Prop :=
  ∀ (w : Word) (s : State), w &&& 0x0002000F = 0x00020000 →
    (decode w).frameClass = .rsv17 ∧
    exec (decode w) s = .next { s with bank :=
      { v := true, raw := w, fc := 4, gf := w.getLsbD 16, tv := false,
        hotC := 0x7FC00000, hotF := 0x7FC00000, coldC := 0x7FC00000, coldF := 0x7FC00000 } }

/-- `FRAME.GFU` (R117). -/
def Obligations.UnclassifiedGeneralFaultFrame : Prop :=
  ∀ (w : Word) (s : State), w &&& 0x0003000F = 0x00010000 →
    (decode w).frameClass = .gfu ∧
    exec (decode w) s = .next { s with bank :=
      { v := true, raw := w, fc := 5, gf := true, tv := false,
        hotC := 0x7FC00000, hotF := 0x7FC00000, coldC := 0x7FC00000, coldF := 0x7FC00000 } }

/-- `FRAME.NONE` (R116): the only class whose numeric registers carry the converter's results. -/
def Obligations.HealthyFrame : Prop :=
  ∀ (w : Word) (s : State), w &&& 0x0003000F = 0x00000000 →
    (decode w).frameClass = .none ∧
    exec (decode w) s = .next { s with bank :=
      { v := true, raw := w, fc := 0, gf := false, tv := true,
        hotC := (convert (extract w)).hotC, hotF := (convert (extract w)).hotF,
        coldC := (convert (extract w)).coldC, coldF := (convert (extract w)).coldF } }

/-- COMPLETION of all seven constructors, on every operand and from every state, with the whole next state: the bank is
`Reading` of the instruction's own frame with `V = 1`, by the composition of R161 (extract, then the priority chain and
the converter, then the gate), and nothing else changes (R166). -/
def Obligations.EveryFrameLoadsItsReading : Prop :=
  ∀ (i : Instr) (s : State),
    let w := encode i
    let f := extract w
    let tv := decide (faultCode f = 0)
    exec i s = .next { s with bank :=
      { v := true, raw := w, fc := faultCode f, gf := f.generalFault, tv := tv,
        hotC := if tv then (convert f).hotC else 0x7FC00000,
        hotF := if tv then (convert f).hotF else 0x7FC00000,
        coldC := if tv then (convert f).coldC else 0x7FC00000,
        coldF := if tv then (convert f).coldF else 0x7FC00000 } }

/-- FRAME: an instruction writes the bank only (R45: accepting a frame has no effect other than the bank update). What is
left is `pending` and `draws`, the environment's, which are the model's own fields and no register of the block (log
entry 1, DESIGN CHOICE): they are as before. -/
def Obligations.FramesWriteTheBankOnly : Prop :=
  ∀ (i : Instr) (s t : State), exec i s = .next t → t.pending = s.pending ∧ t.draws = s.draws

/-! ## The step -/

/-- `STEP` is R160, arm by arm and register by register, with `Reading` as R161 composes it; it always has a next
state. (What becomes of the environment, which is the model's own, is in `StepRunsTheDecodedFrame`.) -/
def Obligations.StepFollowsItsThreeArms : Prop :=
  ∀ s : State,
    let p := s.nextSample
    let f := extract p.inFrame
    let tv := decide (faultCode f = 0)
    ∃ t : State, step s = .next t ∧ t.bank =
      if p.rst = true then
        { v := false, raw := 0x00000000, fc := 0, gf := false, tv := false,
          hotC := 0x7FC00000, hotF := 0x7FC00000, coldC := 0x7FC00000, coldF := 0x7FC00000 }
      else if p.inValid = true then
        { v := true, raw := p.inFrame, fc := faultCode f, gf := f.generalFault, tv := tv,
          hotC := if tv then (convert f).hotC else 0x7FC00000,
          hotF := if tv then (convert f).hotF else 0x7FC00000,
          coldC := if tv then (convert f).coldC else 0x7FC00000,
          coldF := if tv then (convert f).coldF else 0x7FC00000 }
      else
        { v := false, raw := 0x00000000, fc := 0, gf := false, tv := false,
          hotC := 0x7FC00000, hotF := 0x7FC00000, coldC := 0x7FC00000, coldF := 0x7FC00000 }

/-- A STEP RUNS THE DECODED FRAME: where the sample of the edge is an accepted frame, the step is `exec` of the
instruction the frame decodes to, at the state whose environment has given that sample up and whose bank is as before.
On the other two arms the environment gives its sample up in the same way. The environment is the model's own (log entry
1). -/
def Obligations.StepRunsTheDecodedFrame : Prop :=
  (∀ s : State, s.nextSample.rst = false → s.nextSample.inValid = true →
    step s = exec (decode s.nextSample.inFrame) s.consume) ∧
  (∀ s : State, s.consume.bank = s.bank ∧ s.consume.pending = s.pending.tail ∧
    s.consume.draws = if s.pending = [] then s.draws + 1 else s.draws) ∧
  (∀ s t : State, step s = .next t → t.pending = s.consume.pending ∧ t.draws = s.consume.draws)

/-- The frame a table row's number stands for is what the next step decodes and runs (the model's own `withFetchWord`, log
entry 2). -/
def Obligations.FetchWordIsRunNext : Prop :=
  ∀ (s : State) (w : Nat), w < 2 ^ 32 →
    step (s.withFetchWord 32 w) = exec (decode (BitVec.ofNat 32 w)) { s with pending := s.pending.tail } ∧
    decodeTableWord 32 w = some (decode (BitVec.ofNat 32 w))

/-- Reset: after an edge with `rst = 1` every register holds its reset value, whatever it held and whatever the other two
inputs were (R34, R164, R211). -/
def Obligations.ResetEdgeLoadsTheResetValues : Prop :=
  (∀ (s : State) (inValid : Bool) (inFrame : Word), ∃ t : State,
    step (s.drive ⟨true, inValid, inFrame⟩) = .next t ∧
    t.bank = { v := false, raw := 0x00000000, fc := 0, gf := false, tv := false,
               hotC := 0x7FC00000, hotF := 0x7FC00000, coldC := 0x7FC00000, coldF := 0x7FC00000 }) ∧
  State.reset.bank = { v := false, raw := 0x00000000, fc := 0, gf := false, tv := false,
                       hotC := 0x7FC00000, hotF := 0x7FC00000, coldC := 0x7FC00000, coldF := 0x7FC00000 }

/-- Idle: an edge without a frame loads the IDLE pattern, whatever `in_frame` carries and whatever reading was visible
(R165). -/
def Obligations.IdleEdgeWithdrawsTheReading : Prop :=
  ∀ (s : State) (inFrame : Word), ∃ t : State,
    step (s.drive ⟨false, false, inFrame⟩) = .next t ∧
    t.bank = { v := false, raw := 0x00000000, fc := 0, gf := false, tv := false,
               hotC := 0x7FC00000, hotF := 0x7FC00000, coldC := 0x7FC00000, coldF := 0x7FC00000 }

/-- NO HISTORY: two states at whose next edge the same inputs are sampled have the same bank after it, whatever their
banks, their lists and their counters were (R31). -/
def Obligations.NextBankDependsOnTheInputsOnly : Prop :=
  ∀ s s' : State, s.nextSample = s'.nextSample →
    ∃ t t' : State, step s = .next t ∧ step s' = .next t' ∧ t.bank = t'.bank

/-- The unspecified bank of power-on, even one that breaks every invariant, cannot survive one edge: whatever the inputs
at that edge, the whole next state is the same for every bank (R35; the part of it that is the environment's is the
model's own, log entry 1). -/
def Obligations.PowerOnBankIsErasedByOneEdge : Prop :=
  ∀ (s : State) (b : Bank), step { s with bank := b } = step s

/-- From EVERY state, reached or not, one edge leads to a bank with the invariants (a) to (g) of R36. -/
def Obligations.EveryEdgeEstablishesTheInvariants : Prop :=
  ∀ s t : State, step s = .next t → t.bank.Consistent

/-- The bank right after reset has the invariants of R36. -/
def Obligations.ResetBankIsConsistent : Prop :=
  State.reset.bank.Consistent

/-- No edge leads to a reserved output encoding: the code is never 6 or 7, and each numeric register holds `QNAN`, `+0` or
a normal number (R73). -/
def Obligations.ReservedOutputsAreNeverDriven : Prop :=
  ∀ s t : State, step s = .next t →
    t.bank.fc ≠ 6 ∧ t.bank.fc ≠ 7 ∧
    ∀ x ∈ [t.bank.hotC, t.bank.hotF, t.bank.coldC, t.bank.coldF],
      x = 0x7FC00000 ∨ x = 0x00000000 ∨ classify32 x = .normal

/-- ORDER AND LATENCY (R47): from every state, the banks after the listed edges are, one for one and in order, what each
edge's own sample gives, and `out_valid` in each is `in_valid and not rst` of its own edge. The list in the hypothesis is
the model's own way to hold the coming inputs (log entry 1, DESIGN CHOICE). -/
def Obligations.ReadingsAppearInOrderOneEdgeLater : Prop :=
  ∀ (ps qs : List Sample) (s : State), s.pending = ps ++ qs →
    runBanks ps.length s = ps.map (fun p =>
      if p.rst = true then Bank.idle else if p.inValid = true then reading p.inFrame else Bank.idle) ∧
    (runBanks ps.length s).map (fun b => b.v) = ps.map (fun p => p.inValid && !p.rst)

/-- A run of listed samples ends in the bank of its LAST sample, whatever bank it started from: the host's own run of as
many steps as there are samples (R169, R31). That the list is then empty and the draw counter unchanged is of the model's
own fields and no rule's (log entry 1, DESIGN CHOICE). -/
def Obligations.RunEndsInTheBankOfItsLastSample : Prop :=
  ∀ (ps : List Sample) (p : Sample) (s : State), s.pending = ps ++ [p] →
    Sys2Proof.core.run (ps.length + 1) s =
      .next { bank := if p.rst = true then Bank.idle else if p.inValid = true then reading p.inFrame else Bank.idle,
              pending := [], draws := s.draws }

/-- The stimulus notation (R74): whatever triple encodes a well-formed line, the edge does what the line says. -/
def Obligations.StimulusLinesMeanTheirStimuli : Prop :=
  ∀ (l : StimulusLine) (p : Sample) (s : State), l.wellFormed = true → l.encodes p = true →
    ∃ t : State, step (s.drive p) = .next t ∧
      t.bank = match l with
        | .rst => Bank.idle
        | .idle => Bank.idle
        | .frameWord w => reading (BitVec.ofNat 32 w)
        | .frameArgs a => reading (assemble a)

/-! ## What is seen from outside -/

/-- GATING (R163): the four numeric registers of a faulted reading carry no information about the numeric fields. Two
faulted frames that differ in `hot` and `cold` only leave banks that differ in `RAW` only. -/
def Obligations.FaultedReadingHidesTheTemperatures : Prop :=
  ∀ (f : DecodedFields) (hot : HotField) (cold : ColdField) (s : State), faultCode f ≠ 0 →
    ∃ t t' : State,
      exec (decode (pack f)) s = .next t ∧
      exec (decode (pack { f with hotJunctionRaw := hot, coldJunctionRaw := cold })) s = .next t' ∧
      { t.bank with raw := t'.bank.raw } = t'.bank ∧ t'.bank.tv = false ∧ t'.bank.hotC = 0x7FC00000

/-- The pattern of an invalid output is a quiet NaN and is no result of the converter on any frame, so it is never
conflated with a reading (R136, R163). -/
def Obligations.InvalidPatternIsNoTemperature : Prop :=
  classify32 0x7FC00000 = .quietNan ∧ val32 0x7FC00000 = none ∧
  ∀ f : DecodedFields, (convert f).hotC ≠ 0x7FC00000 ∧ (convert f).hotF ≠ 0x7FC00000 ∧
    (convert f).coldC ≠ 0x7FC00000 ∧ (convert f).coldF ≠ 0x7FC00000

/-- The source's `ThermocoupleReading`, seen through the ports by a consumer that obeys R193 (a) and (b): temperatures
present exactly when no fault is classified, and the frame itself always (R162); and no reading after an idle or reset
edge. -/
def Obligations.PortsShowTheSourcesReading : Prop :=
  (∀ (w : Word) (s : State), ∃ t : State, step (s.drive ⟨false, true, w⟩) = .next t ∧
    t.outputs.consumed = some
      { temperatures := if faultCode (extract w) = 0 then some (convert (extract w)) else none
        fault := some (sourceClassify (extract w))
        generalFault := (extract w).generalFault
        rawFrame := w }) ∧
  (∀ (p : Sample) (s : State), (p.rst = true ∨ p.inValid = false) → ∃ t : State,
    step (s.drive p) = .next t ∧ t.outputs.consumed = none)

/-- A set reserved bit is neither ignored nor trapped (R71): it is code `RSV` unless a status bit is set, it always
invalidates the temperatures, and it stays visible in `RAW`. -/
def Obligations.ReservedBitsAreReported : Prop :=
  ∀ (w : Word) (s : State), (w.getLsbD 17 = true ∨ w.getLsbD 3 = true) →
    ∃ t : State, exec (decode w) s = .next t ∧ t.bank.tv = false ∧ t.bank.raw = w ∧
      (t.bank.fc = 4 ↔ w.getLsbD 0 = false ∧ w.getLsbD 1 = false ∧ w.getLsbD 2 = false)
end

