-- ==== Sys2Proof/Laws/Binary32.lean ====
section
/-! SUPPORT. One spec lemma for each binary32 function: the fields and the value of a joined pattern, the exponent and the
significand of the rounding encoder, and the value of the pattern it gives. -/

namespace Sys2Proof.Machine

/-! ## Fields and values of patterns -/
theorem biasedExp_eq (b : Word) : biasedExp b = b.toNat / 2 ^ 23 % 2 ^ 8 := by
  simp [biasedExp, BitVec.extractLsb'_toNat, Nat.shiftRight_eq_div_pow]

theorem trailing_eq (b : Word) : trailing b = b.toNat % 2 ^ 23 := by
  simp [trailing, BitVec.extractLsb'_toNat]

theorem signBit_eq (b : Word) : signBit b = decide (2 ^ 31 ≤ b.toNat) := by
  have hb := b.isLt
  rw [signBit, BitVec.getLsbD, Nat.testBit_eq_decide_div_mod_eq, decide_eq_decide]
  omega

theorem biasedExp_lt (b : Word) : biasedExp b < 256 := by
  rw [biasedExp_eq]; exact Nat.mod_lt _ (by norm_num)

theorem trailing_lt (b : Word) : trailing b < 2 ^ 23 := by
  rw [trailing_eq]; exact Nat.mod_lt _ (by norm_num)

section join
variable (neg : Bool) {biased trail : Nat} (hE : biased < 256) (hT : trail < 2 ^ 23)
include hE hT

theorem joinF32_toNat : (joinF32 neg biased trail).toNat = neg.toNat * 2 ^ 31 + biased * 2 ^ 23 + trail := by
  rw [joinF32, BitVec.toNat_ofNat, Nat.mod_eq_of_lt]
  cases neg <;> simp <;> omega

theorem signBit_joinF32 : signBit (joinF32 neg biased trail) = neg := by
  rw [signBit_eq, joinF32_toNat neg hE hT]
  cases neg <;> simp <;> omega

theorem biasedExp_joinF32 : biasedExp (joinF32 neg biased trail) = biased := by
  rw [biasedExp_eq, joinF32_toNat neg hE hT]
  cases neg <;> simp <;> omega

theorem trailing_joinF32 : trailing (joinF32 neg biased trail) = trail := by
  rw [trailing_eq, joinF32_toNat neg hE hT]
  cases neg <;> simp <;> omega

end join

/-- The value of a pattern in the normal range. -/
theorem val32_of_normal {b : Word} (h1 : 1 ≤ biasedExp b) (h2 : biasedExp b ≤ 254) :
    val32 b = some ((if signBit b then -1 else 1) * 2 ^ ((biasedExp b : ℤ) - 127) * (1 + (trailing b : ℚ) / 2 ^ 23)) := by
  have hc : classify32 b = .normal := by
    rw [classify32, if_neg (by omega), if_neg (by omega)]
  simp only [val32, hc]

/-- The value of a joined normal pattern, with the significand as an integer `q`: `± q * 2^(E - 150)`. -/
theorem val32_joinF32 (neg : Bool) {biased q : Nat} (h1 : 1 ≤ biased) (h2 : biased ≤ 254)
    (hq : 2 ^ 23 ≤ q) (hq' : q < 2 ^ 24) :
    val32 (joinF32 neg biased (q - 2 ^ 23)) = some ((if neg then -1 else 1) * ((q : ℚ) * 2 ^ ((biased : ℤ) - 150))) := by
  have hE : biased < 256 := by omega
  have hT : q - 2 ^ 23 < 2 ^ 23 := by omega
  rw [val32_of_normal (by rw [biasedExp_joinF32 neg hE hT]; exact h1) (by rw [biasedExp_joinF32 neg hE hT]; exact h2),
    biasedExp_joinF32 neg hE hT, signBit_joinF32 neg hE hT, trailing_joinF32 neg hE hT, Nat.cast_sub hq]
  have : (2 : ℚ) ^ ((biased : ℤ) - 127) = 2 ^ ((biased : ℤ) - 150) * 2 ^ 23 := by
    rw [← zpow_natCast (2 : ℚ) 23, ← zpow_add₀ (by norm_num)]; congr 1; push_cast; ring
  rw [this, mul_assoc]
  congr 2
  push_cast
  ring

/-- Every finite pattern is `± k * 2^(max E 1 - 150)` with `k < 2^24`. -/
theorem val32_some {b : Word} {y : ℚ} (h : val32 b = some y) :
    ∃ (k : Nat) (j : ℤ), k < 2 ^ 24 ∧ |y| = k * 2 ^ j := by
  have ht := trailing_lt b
  have hab : ∀ c : Prop, ∀ [Decidable c], |(if c then (-1 : ℚ) else 1)| = 1 := by
    intro c _; split <;> simp
  unfold val32 at h
  simp only at h
  split at h
  · simp at h; exact ⟨0, 0, by norm_num, by simp [← h]⟩
  · refine ⟨2 ^ 23 + trailing b, (biasedExp b : ℤ) - 150, by omega, ?_⟩
    simp only [Option.some.injEq] at h
    have : (2 : ℚ) ^ ((biasedExp b : ℤ) - 127) = 2 ^ ((biasedExp b : ℤ) - 150) * 2 ^ 23 := by
      rw [← zpow_natCast (2 : ℚ) 23, ← zpow_add₀ (by norm_num)]; congr 1; push_cast; ring
    rw [← h, abs_mul, abs_mul, hab, abs_of_pos (by positivity), abs_of_pos (by positivity), this]
    push_cast; ring
  · refine ⟨trailing b, -149, by omega, ?_⟩
    simp only [Option.some.injEq] at h
    have : (2 : ℚ) ^ (-126 : ℤ) = 2 ^ (-149 : ℤ) * 2 ^ 23 := by
      rw [← zpow_natCast (2 : ℚ) 23, ← zpow_add₀ (by norm_num)]; congr 1
    rw [← h, abs_mul, abs_mul, hab, abs_of_pos (by positivity), abs_of_nonneg (by positivity), this]
    ring
  all_goals simp at h

/-! ## The exponent and the significand of the rounding encoder -/

theorem two_zpow_split (d : ℤ) : (2 : ℚ) ^ d = 2 ^ d.toNat / 2 ^ (-d).toNat := by
  rcases le_total 0 d with h | h
  · obtain ⟨n, rfl⟩ := Int.eq_ofNat_of_zero_le h
    simp
  · obtain ⟨n, hn⟩ := Int.eq_ofNat_of_zero_le (Int.neg_nonneg_of_nonpos h)
    obtain rfl : d = -(n : ℤ) := by omega
    simp

theorem le_test_iff (a den : Nat) (d : ℤ) :
    den * 2 ^ d.toNat ≤ a * 2 ^ (-d).toNat ↔ (den : ℚ) * 2 ^ d ≤ a := by
  rw [two_zpow_split, ← mul_div_assoc, div_le_iff₀ (by positivity)]
  exact_mod_cast Iff.rfl

/-- What R141 asks of `e`. -/
theorem rneExp_spec {a den : Nat} (ha : 0 < a) (hd : 0 < den) :
    (den : ℚ) * 2 ^ rneExp a den ≤ a ∧ (a : ℚ) < den * 2 ^ (rneExp a den + 1) := by
  have h2 : (2 : ℚ) ≠ 0 := by norm_num
  have la : (2 : ℚ) ^ (a.log2 : ℤ) ≤ a := by
    rw [zpow_natCast]; exact_mod_cast Nat.log2_self_le (by omega)
  have ua : (a : ℚ) < 2 ^ ((a.log2 : ℤ) + 1) := by
    have := Nat.lt_log2_self (n := a)
    rw [← Nat.cast_one, ← Nat.cast_add, zpow_natCast]; exact_mod_cast this
  have ld : (2 : ℚ) ^ (den.log2 : ℤ) ≤ den := by
    rw [zpow_natCast]; exact_mod_cast Nat.log2_self_le (by omega)
  have ud : (den : ℚ) < 2 ^ ((den.log2 : ℤ) + 1) := by
    have := Nat.lt_log2_self (n := den)
    rw [← Nat.cast_one, ← Nat.cast_add, zpow_natCast]; exact_mod_cast this
  unfold rneExp
  simp only [le_test_iff]
  split
  · rename_i h
    refine ⟨h, ua.trans_le ?_⟩
    calc (2 : ℚ) ^ ((a.log2 : ℤ) + 1) = 2 ^ (den.log2 : ℤ) * 2 ^ ((a.log2 : ℤ) - den.log2 + 1) := by
          rw [← zpow_add₀ h2]; congr 1; ring
      _ ≤ _ := by gcongr
  · rename_i h
    refine ⟨?_, by rw [sub_add_cancel]; exact not_le.mp h⟩
    refine le_trans ?_ la
    calc (den : ℚ) * 2 ^ ((a.log2 : ℤ) - den.log2 - 1) ≤ 2 ^ ((den.log2 : ℤ) + 1) * 2 ^ ((a.log2 : ℤ) - den.log2 - 1) := by
          gcongr
      _ = _ := by rw [← zpow_add₀ h2]; congr 1; ring

/-- The scaled quotient is exact: `N / den' = a / den * 2^(23 - e)`. -/
theorem rneNum_div_rneDen (a : Nat) {den : Nat} (hd : 0 < den) (e : ℤ) :
    (rneNum a e : ℚ) / rneDen den e = (a : ℚ) / den * 2 ^ (23 - e) := by
  have hd' : (den : ℚ) ≠ 0 := by exact_mod_cast hd.ne'
  rw [two_zpow_split, show (-(23 - e)) = e - 23 by ring, rneNum, rneDen]
  push_cast
  field_simp

/-- A quotient of naturals is its integer part and the remainder's share. -/
theorem natCast_div_eq (num : Nat) {den : Nat} (hd : 0 < den) :
    (num : ℚ) / den = (num / den : ℕ) + (num % den : ℕ) / (den : ℚ) := by
  have hdq : (den : ℚ) ≠ 0 := by exact_mod_cast hd.ne'
  rw [div_eq_iff hdq, add_mul, div_mul_cancel₀ _ hdq]
  exact_mod_cast (Nat.div_add_mod' num den).symm

/-- Rounding to nearest: the error is at most a half, and when it is a half the result is even. -/
theorem roundNearestEven_spec (num : Nat) {den : Nat} (hd : 0 < den) :
    |(roundNearestEven num den : ℚ) - num / den| ≤ 1 / 2 ∧
      (|(roundNearestEven num den : ℚ) - num / den| = 1 / 2 → roundNearestEven num den % 2 = 0) := by
  have hdq : (0 : ℚ) < den := by exact_mod_cast hd
  have hr : num % den < den := Nat.mod_lt num hd
  rw [natCast_div_eq num hd]
  unfold roundNearestEven
  generalize num / den = q at *
  generalize num % den = r at *
  have hrq : (r : ℚ) < den := by exact_mod_cast hr
  have h1 : (r : ℚ) / den < 1 := (div_lt_one hdq).mpr hrq
  have h0 : (0 : ℚ) ≤ r / den := by positivity
  have half : ∀ c : ℚ, (r : ℚ) / den = c ↔ (r : ℚ) = c * den := fun c => div_eq_iff hdq.ne'
  simp only
  split
  · rename_i hc
    have h2 : (1 : ℚ) / 2 ≤ r / den := by
      rw [le_div_iff₀ hdq]
      have : den ≤ 2 * r := by omega
      have : (den : ℚ) ≤ 2 * r := by exact_mod_cast this
      linarith
    rw [show ((q + 1 : ℕ) : ℚ) - (q + r / den) = 1 - r / den by push_cast; ring, abs_of_nonneg (by linarith)]
    refine ⟨by linarith, fun h => ?_⟩
    have h3 : (r : ℚ) = 1 / 2 * den := (half _).mp (by linarith)
    have : 2 * r = den := by
      have : (2 * r : ℚ) = den := by linarith
      exact_mod_cast this
    omega
  · rename_i hc
    have h2 : (r : ℚ) / den ≤ 1 / 2 := by
      rw [div_le_iff₀ hdq]
      have : 2 * r ≤ den := by omega
      have : (2 * r : ℚ) ≤ den := by exact_mod_cast this
      linarith
    rw [show (q : ℚ) - (q + r / den) = -(r / den) by ring, abs_neg, abs_of_nonneg h0]
    refine ⟨h2, fun h => ?_⟩
    have h3 : (r : ℚ) = 1 / 2 * den := (half _).mp h
    have : 2 * r = den := by
      have : (2 * r : ℚ) = den := by linarith
      exact_mod_cast this
    omega

/-! ## The pattern of the rounding encoder -/

theorem rneDen_pos {den : Nat} (hd : 0 < den) (e : ℤ) : 0 < rneDen den e := by
  unfold rneDen; positivity

/-- The significand of R141 is in `2^23 .. 2^24`. -/
theorem roundNearestEven_range {a den : Nat} (ha : 0 < a) (hd : 0 < den) :
    let e := rneExp a den
    2 ^ 23 ≤ roundNearestEven (rneNum a e) (rneDen den e) ∧ roundNearestEven (rneNum a e) (rneDen den e) ≤ 2 ^ 24 := by
  intro e
  have hdq : (0 : ℚ) < den := by exact_mod_cast hd
  obtain ⟨hlo, hhi⟩ := rneExp_spec ha hd
  have hx := rneNum_div_rneDen a hd e
  obtain ⟨herr, -⟩ := roundNearestEven_spec (rneNum a e) (rneDen_pos hd e)
  rw [hx, abs_le] at herr
  have h2 : (2 : ℚ) ≠ 0 := by norm_num
  have p1 : (2 : ℚ) ^ e * 2 ^ (23 - e) = 2 ^ 23 := by
    rw [← zpow_add₀ h2, show e + (23 - e) = ((23 : ℕ) : ℤ) by push_cast; ring, zpow_natCast]
  have lo : (2 : ℚ) ^ 23 ≤ (a : ℚ) / den * 2 ^ (23 - e) := by
    rw [← p1]; gcongr; rw [le_div_iff₀ hdq]; linarith
  have hi : (a : ℚ) / den * 2 ^ (23 - e) < 2 ^ 24 := by
    have : (2 : ℚ) ^ (e + 1) * 2 ^ (23 - e) = 2 ^ 24 := by
      rw [← zpow_add₀ h2, show e + 1 + (23 - e) = ((24 : ℕ) : ℤ) by push_cast; ring, zpow_natCast]
    rw [← this]; gcongr; rw [div_lt_iff₀ hdq]; linarith
  generalize roundNearestEven (rneNum a e) (rneDen den e) = q at *
  constructor
  · have : ((2 ^ 23 : ℕ) : ℚ) < (q + 1 : ℕ) := by push_cast; linarith
    exact Nat.lt_succ_iff.mp (by exact_mod_cast this)
  · have : (q : ℚ) < (2 ^ 24 + 1 : ℕ) := by push_cast; linarith
    exact Nat.lt_succ_iff.mp (by exact_mod_cast this)

/-- The value of the rounding encoder's pattern: the rounded significand, scaled back. -/
theorem val32_f32Rne {num : ℤ} {den : Nat} (hn : num ≠ 0) (hd : 0 < den)
    (hlo : -126 ≤ rneExp num.natAbs den) (hhi : rneExp num.natAbs den ≤ 126 ∨
      rneExp num.natAbs den = 127 ∧
        roundNearestEven (rneNum num.natAbs (rneExp num.natAbs den)) (rneDen den (rneExp num.natAbs den)) ≠ 2 ^ 24) :
    val32 (f32Rne num den) = some ((if num < 0 then -1 else 1) *
      ((roundNearestEven (rneNum num.natAbs (rneExp num.natAbs den)) (rneDen den (rneExp num.natAbs den)) : ℚ) *
        2 ^ (rneExp num.natAbs den - 23))) := by
  obtain ⟨q1, q2⟩ := roundNearestEven_range (Int.natAbs_pos.mpr hn) hd
  unfold f32Rne
  simp only
  generalize rneExp num.natAbs den = e at *
  generalize roundNearestEven (rneNum num.natAbs e) (rneDen den e) = q at *
  have h2 : (2 : ℚ) ≠ 0 := by norm_num
  split
  · rename_i hq
    have h := val32_joinF32 (decide (num < 0)) (biased := (e + 1 + 127).toNat) (q := 2 ^ 23)
      (by omega) (by omega) (by norm_num) (by norm_num)
    simp only [Nat.sub_self, decide_eq_true_eq] at h
    rw [h, hq, Int.toNat_of_nonneg (by omega), show e + 1 + 127 - 150 = (e - 23) + 1 by ring, zpow_add₀ h2]
    congr 2; push_cast; ring
  · have h := val32_joinF32 (decide (num < 0)) (biased := (e + 127).toNat) (q := q) (by omega) (by omega) q1 (by omega)
    simp only [decide_eq_true_eq] at h
    rw [h, Int.toNat_of_nonneg (by omega), show e + 127 - 150 = e - 23 by ring]

end Sys2Proof.Machine
end

