-- ==== Sys2Proof/Laws/Encoding.lean ====
section
/-! SUPPORT. The layout of a frame: what packing and extracting do to each bit, that they undo each other field by field, and
what each row of the class table says of single bits. -/

namespace Sys2Proof
/-- The bits of a packed frame, by position (the layout of `30_encoding.md` R60). -/
theorem pack_getLsbD (f : DecodedFields) (i : Nat) :
    (pack f).getLsbD i =
      if i = 0 then f.openCircuit
      else if i = 1 then f.shortToGround
      else if i = 2 then f.shortToVcc
      else if i = 3 then f.reservedBit3
      else if i < 16 then f.coldJunctionRaw.getLsbD (i - 4)
      else if i = 16 then f.generalFault
      else if i = 17 then f.reservedBit17
      else f.hotJunctionRaw.getLsbD (i - 18) := by
  unfold pack
  simp only [BitVec.getLsbD_append, BitVec.getLsbD_ofBool]
  split
  · have : i = 0 := by omega
    simp [this]
  split
  · have : i = 1 := by omega
    simp [this]
  split
  · have : i = 2 := by omega
    simp [this]
  split
  · have : i = 3 := by omega
    simp [this]
  split
  · have h4 : i - 1 - 1 - 1 - 1 = i - 4 := by omega
    rw [h4, if_neg (by omega), if_neg (by omega), if_neg (by omega), if_neg (by omega), if_pos (by omega)]
  split
  · have : i = 16 := by omega
    simp [this]
  split
  · have : i = 17 := by omega
    simp [this]
  · have h4 : i - 1 - 1 - 1 - 1 - 12 - 1 - 1 = i - 18 := by omega
    rw [h4, if_neg (by omega), if_neg (by omega), if_neg (by omega), if_neg (by omega), if_neg (by omega), if_neg (by omega), if_neg (by omega)]

@[simp] theorem xOc_pack (f : DecodedFields) : xOc (pack f) = f.openCircuit := by rw [xOc, pack_getLsbD]; rfl
@[simp] theorem xScg_pack (f : DecodedFields) : xScg (pack f) = f.shortToGround := by rw [xScg, pack_getLsbD]; rfl
@[simp] theorem xScv_pack (f : DecodedFields) : xScv (pack f) = f.shortToVcc := by rw [xScv, pack_getLsbD]; rfl
@[simp] theorem xR3_pack (f : DecodedFields) : xR3 (pack f) = f.reservedBit3 := by rw [xR3, pack_getLsbD]; rfl
@[simp] theorem xGf_pack (f : DecodedFields) : xGf (pack f) = f.generalFault := by rw [xGf, pack_getLsbD]; rfl
@[simp] theorem xR17_pack (f : DecodedFields) : xR17 (pack f) = f.reservedBit17 := by rw [xR17, pack_getLsbD]; rfl

@[simp] theorem xCold_pack (f : DecodedFields) : xCold (pack f) = f.coldJunctionRaw := by
  apply BitVec.eq_of_getLsbD_eq
  intro i hi
  rw [xCold, BitVec.getLsbD_extractLsb', pack_getLsbD, if_neg (by omega), if_neg (by omega), if_neg (by omega),
    if_neg (by omega), if_pos (by omega), show 4 + i - 4 = i by omega, decide_eq_true hi, Bool.true_and]

@[simp] theorem xHot_pack (f : DecodedFields) : xHot (pack f) = f.hotJunctionRaw := by
  apply BitVec.eq_of_getLsbD_eq
  intro i hi
  rw [xHot, BitVec.getLsbD_extractLsb', pack_getLsbD, if_neg (by omega), if_neg (by omega), if_neg (by omega),
    if_neg (by omega), if_neg (by omega), if_neg (by omega), if_neg (by omega), show 18 + i - 18 = i by omega,
    decide_eq_true hi, Bool.true_and]

/-- Extraction gives back every field that was packed. -/
@[simp] theorem extract_pack (f : DecodedFields) : extract (pack f) = f := by
  simp [extract]

/-- Packing the extracted fields gives the frame back. -/
@[simp] theorem pack_extract (w : Word) : pack (extract w) = w := by
  apply BitVec.eq_of_getLsbD_eq
  intro i hi
  rw [pack_getLsbD]
  simp only [extract, xOc, xScg, xScv, xR3, xCold, xGf, xR17, xHot, BitVec.getLsbD_extractLsb']
  split_ifs with h0 h1 h2 h3 h4 h5 h6
  · rw [h0]
  · rw [h1]
  · rw [h2]
  · rw [h3]
  · rw [decide_eq_true (by omega), Bool.true_and, show 4 + (i - 4) = i by omega]
  · rw [h5]
  · rw [h6]
  · rw [decide_eq_true (by omega), Bool.true_and, show 18 + (i - 18) = i by omega]
/-! ## The rows of the class table as conditions on single bits -/

/-- A mask-and-match condition, bit by bit. -/
theorem and_eq_iff_bits (w m p : Word) :
    w &&& m = p ↔ ∀ i < 32, (w.getLsbD i && m.getLsbD i) = p.getLsbD i := by
  simp only [← BitVec.getLsbD_and]
  exact ⟨fun h i _ => by rw [h], fun h => BitVec.eq_of_getLsbD_eq h⟩

theorem holds_oc (w : Word) : FrameClass.oc.holds w = (xOc w) := by
  rw [Bool.eq_iff_iff, FrameClass.holds, beq_iff_eq, FrameClass.mask, FrameClass.pattern, and_eq_iff_bits]
  simp [Nat.forall_lt_succ_right, Nat.le_one_iff_eq_zero_or_eq_one, xOc]

theorem holds_scg (w : Word) : FrameClass.scg.holds w = (xScg w && !xOc w) := by
  rw [Bool.eq_iff_iff, FrameClass.holds, beq_iff_eq, FrameClass.mask, FrameClass.pattern, and_eq_iff_bits]
  simp [Nat.forall_lt_succ_right, Nat.le_one_iff_eq_zero_or_eq_one, xScg, xOc]
  tauto

theorem holds_scv (w : Word) : FrameClass.scv.holds w = (xScv w && !xScg w && !xOc w) := by
  rw [Bool.eq_iff_iff, FrameClass.holds, beq_iff_eq, FrameClass.mask, FrameClass.pattern, and_eq_iff_bits]
  simp [Nat.forall_lt_succ_right, Nat.le_one_iff_eq_zero_or_eq_one, xScv, xScg, xOc]
  tauto

theorem holds_rsv3 (w : Word) : FrameClass.rsv3.holds w = (xR3 w && !xScv w && !xScg w && !xOc w) := by
  rw [Bool.eq_iff_iff, FrameClass.holds, beq_iff_eq, FrameClass.mask, FrameClass.pattern, and_eq_iff_bits]
  simp [Nat.forall_lt_succ_right, Nat.le_one_iff_eq_zero_or_eq_one, xR3, xScv, xScg, xOc]
  tauto

theorem holds_rsv17 (w : Word) : FrameClass.rsv17.holds w = (xR17 w && !xR3 w && !xScv w && !xScg w && !xOc w) := by
  rw [Bool.eq_iff_iff, FrameClass.holds, beq_iff_eq, FrameClass.mask, FrameClass.pattern, and_eq_iff_bits]
  simp [Nat.forall_lt_succ_right, Nat.le_one_iff_eq_zero_or_eq_one, xR17, xR3, xScv, xScg, xOc]
  tauto

theorem holds_gfu (w : Word) : FrameClass.gfu.holds w = (xGf w && !xR17 w && !xR3 w && !xScv w && !xScg w && !xOc w) := by
  rw [Bool.eq_iff_iff, FrameClass.holds, beq_iff_eq, FrameClass.mask, FrameClass.pattern, and_eq_iff_bits]
  simp [Nat.forall_lt_succ_right, Nat.le_one_iff_eq_zero_or_eq_one, xGf, xR17, xR3, xScv, xScg, xOc]
  tauto

theorem holds_none (w : Word) : FrameClass.none.holds w = (!xR17 w && !xGf w && !xR3 w && !xScv w && !xScg w && !xOc w) := by
  rw [Bool.eq_iff_iff, FrameClass.holds, beq_iff_eq, FrameClass.mask, FrameClass.pattern, and_eq_iff_bits]
  simp [Nat.forall_lt_succ_right, Nat.le_one_iff_eq_zero_or_eq_one, xR17, xGf, xR3, xScv, xScg, xOc]
  tauto
end Sys2Proof
end

