-- ==== Sys2Proof/Laws/Operands.lean ====
section
/-! SUPPORT. Sign extension is the signed reading of a bit vector, so Lean's own lemmas about it apply; the operand ranges. -/

namespace Sys2Proof.Machine

theorem sext_eq_toInt {N : Nat} (u : BitVec N) : sext u = u.toInt := by
  rw [sext, BitVec.toInt_eq_msb_cond]
  push_cast
  rfl

theorem sx14_eq_toInt (hot : HotField) : sx14 hot = hot.toInt := sext_eq_toInt hot

theorem sx12_eq_toInt (cold : ColdField) : sx12 cold = cold.toInt := sext_eq_toInt cold

end Sys2Proof.Machine
end

