-- ==== Sys2Proof/Laws/State.lean ====
section
/-! SUPPORT. One lemma per field per update of the state, so that no later proof unfolds a record update. -/

namespace Sys2Proof.Machine

variable (s : State) (b b' : Bank) (p : Sample) (ps : List Sample)

@[simp] theorem load_bank : (s.load b).bank = b := rfl
@[simp] theorem load_pending : (s.load b).pending = s.pending := rfl
@[simp] theorem load_draws : (s.load b).draws = s.draws := rfl
@[simp] theorem load_load : (s.load b).load b' = s.load b' := rfl
@[simp] theorem load_nextSample : (s.load b).nextSample = s.nextSample := rfl

@[simp] theorem drive_bank : (s.drive p).bank = s.bank := rfl
@[simp] theorem drive_pending : (s.drive p).pending = p :: s.pending.tail := rfl
@[simp] theorem drive_draws : (s.drive p).draws = s.draws := rfl
@[simp] theorem drive_nextSample : (s.drive p).nextSample = p := rfl
@[simp] theorem drive_consume : (s.drive p).consume = { s with pending := s.pending.tail } := rfl

@[simp] theorem powerOn_bank : (State.powerOn b ps).bank = b := rfl
@[simp] theorem powerOn_pending : (State.powerOn b ps).pending = ps := rfl
@[simp] theorem powerOn_draws : (State.powerOn b ps).draws = 0 := rfl

@[simp] theorem reset_bank : State.reset.bank = Bank.idle := rfl
@[simp] theorem reset_pending : State.reset.pending = [] := rfl
@[simp] theorem reset_draws : State.reset.draws = 0 := rfl

/-- Taking a sample never touches the bank. -/
@[simp] theorem consume_bank : s.consume.bank = s.bank := by
  unfold State.consume; split <;> rfl

/-- Taking a sample takes the head of the list, if there is one. -/
@[simp] theorem consume_pending : s.consume.pending = s.pending.tail := by
  unfold State.consume; split <;> simp_all

/-- The free value is drawn exactly when no sample is listed. -/
theorem consume_draws : s.consume.draws = if s.pending = [] then s.draws + 1 else s.draws := by
  unfold State.consume; split <;> simp_all

/-- Loading the bank and taking the sample do not interfere. -/
theorem consume_load : (s.load b).consume = s.consume.load b := by
  unfold State.consume State.load; cases s.pending <;> rfl

@[simp] theorem nextSample_of_cons (h : s.pending = p :: ps) : s.nextSample = p := by
  simp [State.nextSample, h]

theorem nextSample_of_nil (h : s.pending = []) : s.nextSample = Config.freeSample s.draws := by
  simp [State.nextSample, h]

theorem consume_of_cons (h : s.pending = p :: ps) : s.consume = { s with pending := ps } := by
  simp [State.consume, h]

end Sys2Proof.Machine
end

