-- ==== Sys2Proof/Laws/Ops.lean ====
section
/-! SUPPORT. One lemma for each shared operation, saying once everything it does, and the case analysis of the step. -/

namespace Sys2Proof.Machine

@[simp] theorem gate_true (wire : Word) : gate true wire = wire := if_pos rfl
@[simp] theorem gate_false (wire : Word) : gate false wire = Config.qnan := if_neg Bool.false_ne_true

/-- A reading without valid temperatures depends on nothing but the frame, the code and the mirror. -/
theorem readingBank_of_invalid (w : Word) (code : FaultCodeWord) (gfm : Bool) (wires : Wires) :
    readingBank w code gfm false wires = { Bank.idle with v := true, raw := w, fc := code, gf := gfm } := rfl

/-- A reading with valid temperatures shows the converter's wires. Cite this, and do not let `rfl` compare the two sides
with `convert` in place of `wires`: the comparison would run the converter on an unknown operand. -/
theorem readingBank_of_valid (w : Word) (code : FaultCodeWord) (gfm : Bool) (wires : Wires) :
    readingBank w code gfm true wires =
      { v := true, raw := w, fc := code, gf := gfm, tv := true,
        hotC := wires.hotC, hotF := wires.hotF, coldC := wires.coldC, coldF := wires.coldF } := by
  simp only [readingBank, gate_true]

/-- The mark of `temperaturesValid` as a decided equation. -/
theorem temperaturesValid_eq (code : FaultCodeWord) : temperaturesValid code = decide (code = 0) := by
  unfold temperaturesValid codeNone
  rw [Bool.eq_iff_iff, beq_iff_eq, decide_eq_true_iff]

/-- A gate opened by a decision, as the rules write it (R161). -/
theorem gate_eq_ite (tv : Bool) (wire : Word) : gate tv wire = if tv = true then wire else Config.qnan := by
  cases tv <;> simp

/-- `Reading`, with the gate not yet opened. -/
theorem reading_eq (w : Word) :
    reading w = readingBank w (faultCode (extract w)) (generalFaultMirror (extract w))
      (temperaturesValid (faultCode (extract w))) (convert (extract w)) := rfl

/-- Accepting a frame writes the bank and nothing else. -/
theorem acceptFrame_eq_load (f : DecodedFields) (code : FaultCodeWord) (gfm tv : Bool) (s : State) :
    acceptFrame f code gfm tv s = s.load (readingBank (pack f) code gfm tv (convert f)) := rfl

theorem stimulusOf_rst {p : Sample} (h : p.rst = true) : stimulusOf p = .rst := by simp [stimulusOf, h]

theorem stimulusOf_frame {p : Sample} (h : p.rst = false) (hv : p.inValid = true) : stimulusOf p = .frame p.inFrame := by
  simp [stimulusOf, h, hv]

theorem stimulusOf_idle {p : Sample} (h : p.rst = false) (hv : p.inValid = false) : stimulusOf p = .idle := by
  simp [stimulusOf, h, hv]

/-- The code and the mark that the class of an instruction states, in one place. -/
def classVerdict : Instr → FaultCodeWord × Bool
  | .frameOc .. => (codeOc, false)
  | .frameScg .. => (codeScg, false)
  | .frameScv .. => (codeScv, false)
  | .frameRsv3 .. => (codeRsv, false)
  | .frameRsv17 .. => (codeRsv, false)
  | .frameGfu .. => (codeGfu, false)
  | .frameNone .. => (codeNone, true)

/-- Everything an instruction can do: it accepts its own fields under its class's code and mark. -/
theorem exec_eq_acceptFrame (i : Instr) (s : State) :
    exec i s = .next (acceptFrame i.fields (classVerdict i).1 i.fields.generalFault (classVerdict i).2 s) := by
  cases i <;> rfl

/-- Everything a step can do. -/
theorem step_cases {s t : State} (h : step s = .next t) :
    (s.nextSample.rst = true ∧ t = s.consume.load Bank.idle) ∨
    (s.nextSample.rst = false ∧ s.nextSample.inValid = false ∧ t = s.consume.load Bank.idle) ∨
    (s.nextSample.rst = false ∧ s.nextSample.inValid = true ∧ exec (decode s.nextSample.inFrame) s.consume = .next t) := by
  unfold step at h
  cases hr : s.nextSample.rst with
  | true =>
    rw [stimulusOf_rst hr] at h
    exact .inl ⟨rfl, (Host.Outcome.next.inj h).symm⟩
  | false =>
    cases hv : s.nextSample.inValid with
    | false =>
      rw [stimulusOf_idle hr hv] at h
      exact .inr (.inl ⟨rfl, rfl, (Host.Outcome.next.inj h).symm⟩)
    | true =>
      rw [stimulusOf_frame hr hv] at h
      exact .inr (.inr ⟨rfl, rfl, h⟩)

end Sys2Proof.Machine
end

