-- ==== Sys2Proof/Laws/PerInstr.lean ====
section
/-! SUPPORT. The family `ClassBits`: the encoding of an instruction has the fixed bits of its own row (`30_encoding.md` R70),
one lemma for each constructor. -/

namespace Sys2Proof.Laws.ClassBits

/-- The encoded word satisfies `(w AND mask) = match` of the instruction's own row. -/
def Statement (i : Instr) : Prop := i.frameClass.holds (encode i) = true

theorem frameOc (hot : HotField) (r17 gf : Bool) (cold : ColdField) (r3 scv scg : Bool) :
    Statement (.frameOc hot r17 gf cold r3 scv scg) := by
  simp [Statement, Instr.frameClass, encode, Instr.fields, holds_oc]

theorem frameScg (hot : HotField) (r17 gf : Bool) (cold : ColdField) (r3 scv : Bool) :
    Statement (.frameScg hot r17 gf cold r3 scv) := by
  simp [Statement, Instr.frameClass, encode, Instr.fields, holds_scg]

theorem frameScv (hot : HotField) (r17 gf : Bool) (cold : ColdField) (r3 : Bool) :
    Statement (.frameScv hot r17 gf cold r3) := by
  simp [Statement, Instr.frameClass, encode, Instr.fields, holds_scv]

theorem frameRsv3 (hot : HotField) (r17 gf : Bool) (cold : ColdField) :
    Statement (.frameRsv3 hot r17 gf cold) := by
  simp [Statement, Instr.frameClass, encode, Instr.fields, holds_rsv3]

theorem frameRsv17 (hot : HotField) (gf : Bool) (cold : ColdField) :
    Statement (.frameRsv17 hot gf cold) := by
  simp [Statement, Instr.frameClass, encode, Instr.fields, holds_rsv17]

theorem frameGfu (hot : HotField) (cold : ColdField) :
    Statement (.frameGfu hot cold) := by
  simp [Statement, Instr.frameClass, encode, Instr.fields, holds_gfu]

theorem frameNone (hot : HotField) (cold : ColdField) :
    Statement (.frameNone hot cold) := by
  simp [Statement, Instr.frameClass, encode, Instr.fields, holds_none]

end Sys2Proof.Laws.ClassBits
end

