-- ==== Sys2Proof/Laws/Step.lean ====
section
/-! SUPPORT. How a run unfolds by one edge, for the model's own `runBanks` and for the host's `core.run`. -/

namespace Sys2Proof.Machine

theorem runBanks_succ {s t : State} (h : step s = .next t) (k : Nat) : runBanks (k + 1) s = t.bank :: runBanks k t := by
  rw [runBanks, h]

theorem core_run_succ {s t : State} (h : step s = .next t) (k : Nat) :
    Sys2Proof.core.run (k + 1) s = Sys2Proof.core.run k t := by
  have h' : Sys2Proof.core.step s = .next t := h
  simp only [Host.Core.run, h']

theorem core_run_zero (s : State) : Sys2Proof.core.run 0 s = .next s := by
  simp only [Host.Core.run]

end Sys2Proof.Machine
end

