-- ==== Sys2Proof/Tests/Slice0.lean ====
section
/-! SUPPORT. The model's own tests. Expected results come from `95_test_vectors.md` (the vector's id stands at each test) or
from the corner cases the rules themselves list; and, for each statement with hypotheses, a witness that meets them. -/

open Sys2Proof Sys2Proof.Machine

namespace Sys2Proof.Tests

/-- A bank that breaks every invariant (the start state of P5), so that a test sees whatever is not overwritten. -/
def junkBank : Bank := ⟨true, 0xDEADBEEF, 7, true, true, 0, 0, 0, 0⟩

/-- The state in which a frame is offered at the next edge. -/
def offer (w : Word) : State := State.powerOn junkBank [⟨false, true, w⟩]

/-- The bank after one edge, if there is a next state. -/
def bankAfter (s : State) : Option Bank :=
  match step s with
  | .next t => some t.bank
  | .fault _ => none
  | .refused _ => none

/-! ## Well-formedness: an ill-formed line for each check -/

theorem test_wf_refuses_hot_below : (StimulusLine.frameArgs { hot := -8193 }).wellFormed = false := by decide
theorem test_wf_refuses_hot_above : (StimulusLine.frameArgs { hot := 8192 }).wellFormed = false := by decide
theorem test_wf_refuses_cold_below : (StimulusLine.frameArgs { cold := -2049 }).wellFormed = false := by decide
theorem test_wf_refuses_cold_above : (StimulusLine.frameArgs { cold := 2048 }).wellFormed = false := by decide
theorem test_wf_refuses_word_of_33_bits : (StimulusLine.frameWord (2 ^ 32)).wellFormed = false := by decide
theorem test_wf_accepts_the_ranges_ends :
    (StimulusLine.frameArgs { hot := -8192, cold := 2047 }).wellFormed = true ∧
    (StimulusLine.frameArgs { hot := 8191, cold := -2048 }).wellFormed = true ∧
    (StimulusLine.frameWord (2 ^ 32 - 1)).wellFormed = true := by decide

/-! ## Decoding and encoding: one word of each class, written out from its row's pattern -/

theorem test_decode_oc :
    decode 0b10100101101001_0_1_101001011010_0_1_0_1 = .frameOc 10601 false true 2650 false true false := by decide
theorem test_decode_scg :
    decode 0b01011010010110_1_0_010110100101_1_0_1_0 = .frameScg 5782 true false 1445 true false := by decide
theorem test_decode_scv :
    decode 0b00111110100000_0_1_000101100000_0_1_0_0 = .frameScv 4000 false true 352 false := by decide
theorem test_decode_rsv3 :
    decode 0b00010010001101_0_0_010101100111_1_0_0_0 = .frameRsv3 1165 false false 1383 := by decide
theorem test_decode_rsv17 :
    decode 0b00000001100100_1_0_000110010000_0_0_0_0 = .frameRsv17 100 false 400 := by decide
theorem test_decode_gfu :
    decode 0b00000001100100_0_1_000110010000_0_0_0_0 = .frameGfu 100 400 := by decide
theorem test_decode_none :
    decode 0b11111110011100_0_0_111101100000_0_0_0_0 = .frameNone 16284 3936 := by decide
/-- The two rows that share `code 4`: with both reserved bits set the frame is `FRAME.RSV3` (V59). -/
theorem test_decode_both_reserved_bits : (decode 0x00020008).frameClass = .rsv3 := by decide
/-- P2 edge 2: `FRAME hot=4000 cold=352 gf scv`. -/
theorem test_assemble : assemble { hot := 4000, cold := 352, gf := true, scv := true } = 0x3E811604 := by decide
/-- Bus packing of §6. -/
theorem test_pack_units : packUnits 0x01 0x90 0x19 0x00 = 0x01901900 := by decide
theorem test_decode_units : decodeUnits [0x01, 0x90, 0x19, 0x00] = .ok (.frameNone 100 400) := rfl
theorem test_decode_units_rejects_three : decodeUnits [0x01, 0x90, 0x19] = .error (.incompleteFrame 3) := rfl
/-- The host's numbering: bit `k` of the number is frame bit `k`. -/
theorem test_decode_table_word : decodeTableWord 32 0x01921900 = some (.frameRsv17 100 false 400) := by decide
/-- X15. -/
theorem test_extract_mixed : extract 0xA5A5A5A5 = ⟨10601, false, true, 2650, false, true, false, true⟩ := by decide

/-! ## Sign extension: SX4, SX7, SX13, SX14 -/

theorem test_sx14 : sx14 8192 = -8192 ∧ sx14 16284 = -100 := by decide
theorem test_sx12 : sx12 2049 = -2047 ∧ sx12 4095 = -1 := by decide

/-! ## One step for each class, from a bank that must be overwritten whole -/

/-- V69: the temperatures of a plausible frame are suppressed under `oc`. -/
theorem test_step_oc :
    bankAfter (offer 0x01911901) =
      some ⟨true, 0x01911901, 1, true, false, 0x7FC00000, 0x7FC00000, 0x7FC00000, 0x7FC00000⟩ := by decide
/-- V54: `scg` beats `scv`. -/
theorem test_step_scg :
    bankAfter (offer 0x00000006) =
      some ⟨true, 0x00000006, 2, false, false, 0x7FC00000, 0x7FC00000, 0x7FC00000, 0x7FC00000⟩ := by decide
/-- V72. -/
theorem test_step_scv :
    bankAfter (offer 0x3E811604) =
      some ⟨true, 0x3E811604, 3, true, false, 0x7FC00000, 0x7FC00000, 0x7FC00000, 0x7FC00000⟩ := by decide
/-- V60: bit 3 with bit 16; the mirror is kept. -/
theorem test_step_rsv3 :
    bankAfter (offer 0x00010008) =
      some ⟨true, 0x00010008, 4, true, false, 0x7FC00000, 0x7FC00000, 0x7FC00000, 0x7FC00000⟩ := by decide
/-- S7. -/
theorem test_step_rsv17 :
    bankAfter (offer 0x00020000) =
      some ⟨true, 0x00020000, 4, false, false, 0x7FC00000, 0x7FC00000, 0x7FC00000, 0x7FC00000⟩ := by decide
/-- V68: bit 16 alone on plausible temperatures. -/
theorem test_step_gfu :
    bankAfter (offer 0x01911900) =
      some ⟨true, 0x01911900, 5, true, false, 0x7FC00000, 0x7FC00000, 0x7FC00000, 0x7FC00000⟩ := by decide
/-- V26: an exact and a rounded Fahrenheit result. -/
theorem test_step_none :
    bankAfter (offer 0x3E801600) =
      some ⟨true, 0x3E801600, 0, false, true, 0x447A0000, 0x44E50000, 0x41B00000, 0x428F3333⟩ := by decide
/-- V40: negative Fahrenheit results just below zero. -/
theorem test_step_none_below_zero :
    bankAfter (offer 0xFEE0EE30) =
      some ⟨true, 0xFEE0EE30, 0, false, true, 0xC1900000, 0xBECCCCCD, 0xC18E8000, 0xBD800000⟩ := by decide

/-- P3 edge 1: `rst` wins over a frame offered at the same edge. -/
theorem test_step_reset_wins :
    bankAfter (State.powerOn junkBank [⟨true, true, 0x7FFC0000⟩]) = some State.reset.bank := by decide
/-- P4 edge 2: `in_frame` is ignored without `in_valid`. -/
theorem test_step_idle_ignores_the_frame :
    bankAfter (State.powerOn junkBank [⟨false, false, 0xFFFFFFFF⟩]) = some State.reset.bank := by decide
/-- S2 as the first frame after reset, placed as the host places it. -/
theorem test_fetch_word_after_reset :
    bankAfter (State.reset.withFetchWord 32 0x7FFC0000) =
      some ⟨true, 0x7FFC0000, 0, false, true, 0x44FFF800, 0x45685F33, 0x00000000, 0x42000000⟩ := by decide

/-! ## The rounding encoder where the block never goes: a tie, a carry, and the top of R141's range (log entry 6) -/

/-- `2^24 + 1` is half way between `2^24` and `2^24 + 2`: the even significand wins (R141, ties to even). -/
theorem test_rne_tie_goes_to_even : f32Rne (2 ^ 24 + 1) 1 = 0x4B800000 := by decide
/-- `2^24 - 1/2` rounds up into the next binade (R141, the carry line): the pattern of `2^24`. -/
theorem test_rne_carry : f32Rne (2 ^ 25 - 1) 2 = 0x4B800000 := by decide
/-- At the closed end `2^128 - 2^103` the algorithm of R141 gives exponent 255, an infinity. -/
theorem test_rne_closed_end_is_infinity : classify32 (f32Rne (2 ^ 128 - 2 ^ 103) 1) = .infinity := by decide

/-! ## Witnesses: the hypotheses of the statements can be met, at the ends of their ranges -/

/-- `AssembledFrameGivesItsOperandsBack`. -/
theorem witness_assemble_ranges :
    FrameArgs.wellFormed { hot := -8192, cold := -2048 } = true ∧ FrameArgs.wellFormed { hot := 8191, cold := 2047 } = true := by
  decide

/-- `ClassRowsSelectTheChainsCode` and the seven frame-class statements: a word that meets each row's condition. -/
theorem witness_class_rows :
    (0xFFFFFFFF : Word) &&& 0x00000001 = 0x00000001 ∧ (0xFFFFFFFE : Word) &&& 0x00000003 = 0x00000002 ∧
    (0xFFFFFFFC : Word) &&& 0x00000007 = 0x00000004 ∧ (0xFFFFFFF8 : Word) &&& 0x0000000F = 0x00000008 ∧
    (0xFFFFFFF0 : Word) &&& 0x0002000F = 0x00020000 ∧ (0xFFFDFFF0 : Word) &&& 0x0003000F = 0x00010000 ∧
    (0xFFFCFFF0 : Word) &&& 0x0003000F = 0x00000000 := by decide

/-- `SerialUnitsFillTheFrameFromTheTop`: a list of 32 wire bits, and the two ends of the position. -/
theorem witness_wire_bits : (List.replicate 32 true).length = 32 ∧ 0 < 32 ∧ 31 < 32 := by decide

/-- `FaultDecisionTable`: fields for each of its seven clauses, with every "any value" bit set. -/
theorem witness_decision_rows :
    (extract 0x0003000F).openCircuit = true ∧
    ((extract 0x0003000E).openCircuit = false ∧ (extract 0x0003000E).shortToGround = true) ∧
    ((extract 0x0003000C).openCircuit = false ∧ (extract 0x0003000C).shortToGround = false ∧
      (extract 0x0003000C).shortToVcc = true) ∧
    ((extract 0x00030008).openCircuit = false ∧ (extract 0x00030008).shortToGround = false ∧
      (extract 0x00030008).shortToVcc = false ∧ (extract 0x00030008).reservedBit3 = true) ∧
    ((extract 0x00030000).shortToVcc = false ∧ (extract 0x00030000).reservedBit3 = false ∧
      (extract 0x00030000).reservedBit17 = true) ∧
    ((extract 0x00010000).reservedBit3 = false ∧ (extract 0x00010000).reservedBit17 = false ∧
      (extract 0x00010000).generalFault = true) ∧
    ((extract 0x00000000).reservedBit17 = false ∧ (extract 0x00000000).generalFault = false) := by decide

/-- `ClassifierAndConverterAreIndependent`: two frames alike in the six bits and not in the fields, and the reverse. -/
theorem witness_independent_fields :
    ((extract 0xFFFC0001).openCircuit = (extract 0x00000001).openCircuit ∧ extract 0xFFFC0001 ≠ extract 0x00000001) ∧
    ((extract 0x00000001).hotJunctionRaw = (extract 0x00000000).hotJunctionRaw ∧
      (extract 0x00000001).coldJunctionRaw = (extract 0x00000000).coldJunctionRaw ∧
      extract 0x00000001 ≠ extract 0x00000000) := by decide

/-- `SignExtensionIsGenericInTheWidth` and `NumeratorsNeverOverflow`: widths at the ends. -/
theorem witness_widths : (1 ≤ 1 ∧ 1 ≤ 1) ∧ (1 ≤ 14 ∧ 14 ≤ 32) ∧ 18 ≤ 18 ∧ 16 ≤ 16 := by decide

/-- `ExactEncoderLosesNothing`: the largest integer, and the smallest normal value. -/
theorem witness_exact_domain :
    ((2 ^ 24 - 1 : ℤ).natAbs < 2 ^ 24 ∧ (2 : ℚ) ^ (-126 : ℤ) ≤ |((2 ^ 24 - 1 : ℤ) : ℚ) / 2 ^ 0|) ∧
    ((1 : ℤ).natAbs < 2 ^ 24 ∧ (2 : ℚ) ^ (-126 : ℤ) ≤ |((1 : ℤ) : ℚ) / 2 ^ 126|) := by norm_num

/-- `RoundingEncoderIsNearestTiesToEven`: the largest hot numerator, and the smallest normal value. -/
theorem witness_rounding_domain :
    ((74359 : ℤ) ≠ 0 ∧ 0 < 20 ∧ (2 : ℚ) ^ (-126 : ℤ) ≤ |((74359 : ℤ) : ℚ) / (20 : ℕ)| ∧
      |((74359 : ℤ) : ℚ) / (20 : ℕ)| < 2 ^ 128 - 2 ^ 103) ∧
    ((-1 : ℤ) ≠ 0 ∧ (2 : ℚ) ^ (-126 : ℤ) ≤ |((-1 : ℤ) : ℚ) / (2 ^ 126 : ℕ)| ∧
      |((-1 : ℤ) : ℚ) / (2 ^ 126 : ℕ)| < 2 ^ 128 - 2 ^ 103) := by norm_num

/-- `RoundingEncoderIsNearestTiesToEven` and `FahrenheitResultsAreTheUniqueNearest`: a pattern with a value other than the
result. -/
theorem witness_other_pattern :
    val32 0x00000000 = some 0 ∧ (0x00000000 : Word) ≠ (convert (extract 0x00000000)).hotF := by
  refine ⟨?_, by decide⟩
  have h : classify32 0x00000000 = .zero := by decide
  simp only [val32, h]

/-- `CelsiusResultsAreExact` and `ConversionsAreStrictlyIncreasing`: zero operands, and operands in order. -/
theorem witness_operands :
    sx14 (extract 0x00000000).hotJunctionRaw = 0 ∧ sx12 (extract 0x00000000).coldJunctionRaw = 0 ∧
    sx14 (extract 0x80000000).hotJunctionRaw < sx14 (extract 0x7FFC0000).hotJunctionRaw ∧
    sx12 (extract 0x00008000).coldJunctionRaw < sx12 (extract 0x00007FF0).coldJunctionRaw := by decide

/-- `FramesWriteTheBankOnly`, `EveryEdgeEstablishesTheInvariants`, `ReservedOutputsAreNeverDriven`: a next state. -/
theorem witness_next_state :
    (∃ t : State, exec (.frameGfu 100 400) (offer 0x00000000) = .next t) ∧ (∃ t : State, step (offer 0x01911900) = .next t) :=
  ⟨⟨_, rfl⟩, ⟨_, rfl⟩⟩

/-- `StepRunsTheDecodedFrame`: a state that offers a frame. -/
theorem witness_offered_frame :
    (offer 0x01901900).nextSample.rst = false ∧ (offer 0x01901900).nextSample.inValid = true := by decide

/-- `FetchWordIsRunNext`: the last word. -/
theorem witness_fetch_word : 0xFFFFFFFF < 2 ^ 32 := by decide

/-- `NextBankDependsOnTheInputsOnly`: two different states with the same sample. -/
theorem witness_same_sample :
    (offer 0x00000001).nextSample = (State.powerOn Bank.idle [⟨false, true, 0x00000001⟩]).nextSample ∧
    offer 0x00000001 ≠ State.powerOn Bank.idle [⟨false, true, 0x00000001⟩] := by decide

/-- `ReadingsAppearInOrderOneEdgeLater` and `RunEndsInTheBankOfItsLastSample`: a state whose list is the one in question and
a rest, or a last sample. -/
theorem witness_listed_samples :
    (State.powerOn junkBank [⟨false, true, 0x00000001⟩, ⟨false, false, 0⟩, ⟨true, true, 0⟩]).pending =
      [⟨false, true, 0x00000001⟩, ⟨false, false, 0⟩] ++ [⟨true, true, 0⟩] := rfl

/-- `StimulusLinesMeanTheirStimuli`: a well-formed line of each form with a triple that encodes it. -/
theorem witness_stimulus_lines :
    (StimulusLine.rst.wellFormed = true ∧ StimulusLine.rst.encodes ⟨true, true, 0xFFFFFFFF⟩ = true) ∧
    (StimulusLine.idle.wellFormed = true ∧ StimulusLine.idle.encodes ⟨false, false, 0xFFFFFFFF⟩ = true) ∧
    ((StimulusLine.frameWord 0xFFFFFFFF).wellFormed = true ∧
      (StimulusLine.frameWord 0xFFFFFFFF).encodes ⟨false, true, 0xFFFFFFFF⟩ = true) ∧
    ((StimulusLine.frameArgs { hot := -8192, cold := -2048 }).wellFormed = true ∧
      (StimulusLine.frameArgs { hot := -8192, cold := -2048 }).encodes ⟨false, true, 0x80008000⟩ = true) := by decide

/-- `FaultedReadingHidesTheTemperatures`: faulted fields of the highest and of the lowest priority. -/
theorem witness_faulted_fields : faultCode (extract 0x0003000F) ≠ 0 ∧ faultCode (extract 0x00010000) ≠ 0 := by decide

/-- `PortsShowTheSourcesReading` (both ways to have no frame) and `ReservedBitsAreReported` (either bit). -/
theorem witness_ports_and_reserved_bits :
    ((⟨true, true, 0⟩ : Sample).rst = true ∧ (⟨false, false, 0⟩ : Sample).inValid = false) ∧
    ((0x00020000 : Word).getLsbD 17 = true ∧ (0x00000008 : Word).getLsbD 3 = true) := by decide

end Sys2Proof.Tests
end

section
/-! PROOFS. The step arm by arm, what an instruction and a step do to the environment, and the frame a table row's number
stands for (`00_scope.md` R5; `43_reading_step.md` R166). -/

namespace Sys2Proof

/-- Cutting a frame into its four units and packing them in transfer order gives the frame back (R40). -/
theorem packUnits_unitsOf (w : Word) :
    packUnits (w.extractLsb' 24 8) (w.extractLsb' 16 8) (w.extractLsb' 8 8) (w.extractLsb' 0 8) = w := by
  unfold packUnits
  rw [BitVec.extractLsb'_append_extractLsb'_eq_extractLsb' (by rfl),
    BitVec.extractLsb'_append_extractLsb'_eq_extractLsb' (by rfl),
    BitVec.extractLsb'_append_extractLsb'_eq_extractLsb' (by rfl)]
  exact BitVec.extractLsb'_eq_self

/-- The decoder on a frame's own four units is the decoder on the frame. -/
theorem decodeUnits_unitsOf (w : Word) : decodeUnits (unitsOf w) = .ok (decode w) := by
  rw [unitsOf, decodeUnits, packUnits_unitsOf]

/-- A row as wide as the frame is the number itself, whatever the number. -/
theorem tableWord_full (w : Nat) : tableWord 32 w = BitVec.ofNat 32 w := by
  apply BitVec.eq_of_toNat_eq
  simp only [tableWord, BitVec.toNat_ofNat, Nat.mod_mod]

/-- Every row that fits the frame decodes, to what its word decodes to. -/
theorem decodeTableWord_eq {nbits : Nat} (h : nbits ≤ 32) (w : Nat) :
    decodeTableWord nbits w = some (decode (tableWord nbits w)) := by
  rw [decodeTableWord, if_pos h, decodeUnits_unitsOf]
  rfl

end Sys2Proof

namespace Sys2Proof.Machine

/-- The frame arm of the step. -/
theorem step_of_frame {s : State} (hr : s.nextSample.rst = false) (hv : s.nextSample.inValid = true) :
    step s = exec (decode s.nextSample.inFrame) s.consume := by
  rw [step, stimulusOf_frame hr hv]

/-- An instruction leaves the environment as it was (R45). -/
theorem exec_environment {i : Instr} {s t : State} (h : exec i s = .next t) :
    t.pending = s.pending ∧ t.draws = s.draws := by
  rw [exec_eq_acceptFrame, acceptFrame_eq_load] at h
  cases h
  exact ⟨load_pending .., load_draws ..⟩

/-- On every arm, the environment after a step is the one that has given its sample up. -/
theorem step_environment {s t : State} (h : step s = .next t) :
    t.pending = s.consume.pending ∧ t.draws = s.consume.draws := by
  obtain ⟨-, rfl⟩ | ⟨-, -, rfl⟩ | ⟨-, -, hexec⟩ := step_cases h
  · exact ⟨load_pending .., load_draws ..⟩
  · exact ⟨load_pending .., load_draws ..⟩
  · exact exec_environment hexec

/-- A step at a placed row runs the row's word, at the state without the sample the row stood in for. -/
theorem step_withFetchWord (s : State) (nbits w : Nat) :
    step (s.withFetchWord nbits w) = exec (decode (tableWord nbits w)) { s with pending := s.pending.tail } := by
  rw [State.withFetchWord, step_of_frame (by rw [drive_nextSample]) (by rw [drive_nextSample]), drive_nextSample,
    drive_consume]

end Sys2Proof.Machine

open Sys2Proof Sys2Proof.Machine

/-- Settles O34: the frame arm of the step, what taking a sample does, and the environment on each of the three arms. -/
theorem stepRunsTheDecodedFrame : Obligations.StepRunsTheDecodedFrame := by
  unfold Obligations.StepRunsTheDecodedFrame
  refine ⟨fun s hr hv => step_of_frame hr hv, fun s => ?_, fun s t h => step_environment h⟩
  exact ⟨consume_bank s, consume_pending s, consume_draws s⟩

/-- Settles O35: the placed row takes the frame arm, and its word is the number itself on both paths to the decoder. -/
theorem fetchWordIsRunNext : Obligations.FetchWordIsRunNext := by
  unfold Obligations.FetchWordIsRunNext
  intro s w _
  rw [step_withFetchWord, decodeTableWord_eq le_rfl, tableWord_full]
  exact ⟨rfl, rfl⟩

end

section
/-! PROOFS. The bank after an edge as a function of the sample alone (`10_state.md` R31), its invariants (R36), and what a
consumer reads from it at the ports (R30; `43_reading_step.md` R162). -/

namespace Sys2Proof

/-! ## The decoder as the priority chain of R110 -/

/-- The decoder tests single bits in the order of the priority chain: each row's mask repeats the refusals before it. -/
theorem decode_eq_chain (w : Word) :
    decode w =
      if xOc w then .frameOc (xHot w) (xR17 w) (xGf w) (xCold w) (xR3 w) (xScv w) (xScg w)
      else if xScg w then .frameScg (xHot w) (xR17 w) (xGf w) (xCold w) (xR3 w) (xScv w)
      else if xScv w then .frameScv (xHot w) (xR17 w) (xGf w) (xCold w) (xR3 w)
      else if xR3 w then .frameRsv3 (xHot w) (xR17 w) (xGf w) (xCold w)
      else if xR17 w then .frameRsv17 (xHot w) (xGf w) (xCold w)
      else if xGf w then .frameGfu (xHot w) (xCold w)
      else .frameNone (xHot w) (xCold w) := by
  simp only [decode, classOf, holds_oc, holds_scg, holds_scv, holds_rsv3, holds_rsv17, holds_gfu]
  split_ifs <;> simp_all

/-- The fields of the decoded instruction are the frame's: no operand is lost and every fixed bit is as the row says. -/
@[simp] theorem fields_decode (w : Word) : (decode w).fields = extract w := by
  rw [decode_eq_chain]
  split_ifs <;> simp [*, Instr.fields, extract]

end Sys2Proof

namespace Sys2Proof.Machine

/-! ## The classifier -/

/-- The row that the decoder picks states the code of the priority chain, and the mark that goes with it. -/
theorem classVerdict_decode (w : Word) :
    classVerdict (decode w) = (faultCode (extract w), temperaturesValid (faultCode (extract w))) := by
  rw [decode_eq_chain]
  split_ifs <;> simp [*, classVerdict, faultCode, extract, temperaturesValid_eq] <;> decide

theorem faultCode_le_five (f : DecodedFields) : (faultCode f).toNat ≤ 5 := by
  unfold faultCode
  split_ifs <;> decide

/-- Code 5 is the chain's last test, the general-fault bit itself (R117). -/
theorem generalFault_of_faultCode_gfu {f : DecodedFields} (h : faultCode f = 5) : f.generalFault = true := by
  cases hgf : f.generalFault with
  | true => rfl
  | false =>
    rw [faultCode, hgf, if_neg Bool.false_ne_true] at h
    split_ifs at h <;> exact absurd h (by decide)

/-- The source's category is read back from the chain's code, test by test (R120). -/
theorem recoverCategory_faultCode (f : DecodedFields) : recoverCategory (faultCode f) = some (sourceClassify f) := by
  unfold faultCode sourceClassify
  split_ifs <;> rfl

/-! ## The registers of `Reading` -/

section
variable (w : Word)

@[simp] theorem reading_v : (reading w).v = true := rfl
@[simp] theorem reading_raw : (reading w).raw = w := rfl
@[simp] theorem reading_fc : (reading w).fc = faultCode (extract w) := rfl
@[simp] theorem reading_gf : (reading w).gf = w.getLsbD 16 := rfl
@[simp] theorem reading_tv : (reading w).tv = decide (faultCode (extract w) = 0) := temperaturesValid_eq _

end

/-- With a fault the numeric registers and the mark stay at the IDLE pattern (R163). -/
theorem reading_of_fault {w : Word} (h : faultCode (extract w) ≠ 0) :
    reading w = { Bank.idle with v := true, raw := w, fc := faultCode (extract w), gf := w.getLsbD 16 } := by
  rw [reading_eq, temperaturesValid_eq, decide_eq_false h, readingBank_of_invalid]
  rfl

/-! ## The bank after an edge -/

/-- The bank that the three inputs of an edge leave: the IDLE pattern, or the reading of the offered frame (R160). -/
def sampleBank (p : Sample) : Bank :=
  if p.rst = true then Bank.idle else if p.inValid = true then reading p.inFrame else Bank.idle

@[simp] theorem sampleBank_frame (w : Word) : sampleBank ⟨false, true, w⟩ = reading w := rfl

/-- An edge without an accepted frame leaves the IDLE pattern, for either reason (R164, R165). -/
theorem sampleBank_of_noFrame {p : Sample} (h : p.rst = true ∨ p.inValid = false) : sampleBank p = Bank.idle := by
  unfold sampleBank
  obtain hr | hv := h
  · rw [if_pos hr]
  · rw [hv, if_neg Bool.false_ne_true, ite_self]

/-- What holds of the IDLE pattern and of every reading holds of the bank after any edge. -/
theorem sampleBank_induction {P : Bank → Prop} (idle : P Bank.idle) (frame : ∀ w, P (reading w)) (p : Sample) :
    P (sampleBank p) := by
  unfold sampleBank
  split_ifs
  · exact idle
  · exact frame _
  · exact idle

/-- An accepted frame loads its reading, although its class's meaning does not use the priority chain (R70, R110). -/
theorem exec_decode (w : Word) (s : State) : exec (decode w) s = .next (s.load (reading w)) := by
  rw [exec_eq_acceptFrame, acceptFrame_eq_load, fields_decode, classVerdict_decode, pack_extract, reading_eq]
  rfl

/-- Everything a step does, in one equation: it always has a next state, and the bank before it does not occur. -/
theorem step_eq_load (s : State) : step s = .next (s.consume.load (sampleBank s.nextSample)) := by
  unfold step sampleBank stimulusOf
  split_ifs
  · rfl
  · exact exec_decode _ _
  · rfl

/-- The step at a sample that is put in place. -/
theorem step_drive (s : State) (p : Sample) :
    step (s.drive p) = .next (State.load (sampleBank p) { s with pending := s.pending.tail }) := by
  rw [step_eq_load, drive_nextSample, drive_consume]

/-- The step at a listed sample. -/
theorem step_of_cons {s : State} {p : Sample} {ps : List Sample} (h : s.pending = p :: ps) :
    step s = .next { bank := sampleBank p, pending := ps, draws := s.draws } := by
  rw [step_eq_load, nextSample_of_cons s p ps h, consume_of_cons s p ps h]
  rfl

/-- The bank before the edge has no influence on the next state. -/
theorem step_load (b : Bank) (s : State) : step (s.load b) = step s := by
  rw [step_eq_load, step_eq_load, load_nextSample, consume_load, load_load]

/-- A run through a list of samples, every one of which completes, ends in the bank of the last. -/
theorem core_run_listed (ps : List Sample) (p : Sample) (s : State) (h : s.pending = ps ++ [p]) :
    Sys2Proof.core.run (ps.length + 1) s = .next { bank := sampleBank p, pending := [], draws := s.draws } := by
  induction ps generalizing s with
  | nil => rw [core_run_succ (step_of_cons h), List.length_nil, core_run_zero]
  | cons q qs ih => rw [core_run_succ (step_of_cons h), List.length_cons, ih _ rfl]

/-! ## The invariants of R36 -/

theorem idle_consistent : Bank.idle.Consistent where
  idle_of_not_valid _ := rfl
  reading_of_valid h := absurd h Bool.false_ne_true
  valid_of_tempValid h := absurd h Bool.false_ne_true
  qnan_of_not_tempValid _ := ⟨rfl, rfl, rfl, rfl⟩
  code_le_five := by decide
  generalFault_of_gfu h := absurd h (by decide)
  generalFault_eq_bit16 h := absurd h Bool.false_ne_true

theorem reading_consistent (w : Word) : (reading w).Consistent where
  idle_of_not_valid h := absurd h.symm Bool.false_ne_true
  reading_of_valid _ := by rw [reading_raw]
  valid_of_tempValid h := ⟨reading_v w, by simpa using h⟩
  qnan_of_not_tempValid h := by
    have hfault : faultCode (extract w) ≠ 0 := by simpa using h
    rw [reading_of_fault hfault]
    exact ⟨rfl, rfl, rfl, rfl⟩
  code_le_five := faultCode_le_five _
  generalFault_of_gfu h := generalFault_of_faultCode_gfu h
  generalFault_eq_bit16 _ := by rw [reading_gf, reading_raw]

theorem sampleBank_consistent (p : Sample) : (sampleBank p).Consistent :=
  sampleBank_induction idle_consistent reading_consistent p

/-! ## What a consumer takes from the ports -/

theorem consumed_of_idle (s : State) : (s.load Bank.idle).outputs.consumed = none := rfl

/-- A visible reading is taken whole, but for the wires behind a closed gate. The wires stand here as a variable, so that
`rfl` has no converter to run. -/
theorem consumed_of_readingBank (s : State) (w : Word) (code : FaultCodeWord) (gfm tv : Bool) (wires : Wires) :
    (s.load (readingBank w code gfm tv wires)).outputs.consumed = some
      { temperatures := if tv = true then some wires else none
        fault := recoverCategory code
        generalFault := gfm
        rawFrame := w } := by
  cases tv <;> rfl

/-- The source's reading of a frame, behind the two valid bits (R162, R193). -/
theorem consumed_of_reading (s : State) (w : Word) :
    (s.load (reading w)).outputs.consumed = some
      { temperatures := if faultCode (extract w) = 0 then some (convert (extract w)) else none
        fault := some (sourceClassify (extract w))
        generalFault := (extract w).generalFault
        rawFrame := w } := by
  rw [reading_eq, consumed_of_readingBank, recoverCategory_faultCode, temperaturesValid_eq, generalFaultMirror]
  simp only [decide_eq_true_eq]

end Sys2Proof.Machine

open Sys2Proof Sys2Proof.Machine

/-- Settles O40: a step's bank is that of its sample, an IDLE pattern or a reading, and both have the invariants. -/
theorem everyEdgeEstablishesTheInvariants : Obligations.EveryEdgeEstablishesTheInvariants := by
  unfold Obligations.EveryEdgeEstablishesTheInvariants
  intro s t h
  rw [step_eq_load] at h
  cases h
  exact sampleBank_consistent _

/-- Settles O38: both steps load the bank of the one sample. -/
theorem nextBankDependsOnTheInputsOnly : Obligations.NextBankDependsOnTheInputsOnly := by
  unfold Obligations.NextBankDependsOnTheInputsOnly
  intro s s' h
  refine ⟨_, _, step_eq_load s, step_eq_load s', ?_⟩
  rw [load_bank, load_bank, h]

/-- Settles O44, by induction on the samples before the last. -/
theorem runEndsInTheBankOfItsLastSample : Obligations.RunEndsInTheBankOfItsLastSample := by
  unfold Obligations.RunEndsInTheBankOfItsLastSample
  exact core_run_listed

/-- Settles O48: the ports show the bank that the driven sample leaves, a reading or the IDLE pattern. -/
theorem portsShowTheSourcesReading : Obligations.PortsShowTheSourcesReading := by
  unfold Obligations.PortsShowTheSourcesReading
  refine ⟨fun w s => ⟨_, step_drive s _, ?_⟩, fun p s hp => ⟨_, step_drive s p, ?_⟩⟩
  · rw [sampleBank_frame, consumed_of_reading]
  · rw [sampleBank_of_noFrame hp, consumed_of_idle]

/-- Settles O36: the reset arm loads the IDLE pattern, which is the reset value of every register. -/
theorem resetEdgeLoadsTheResetValues : Obligations.ResetEdgeLoadsTheResetValues := by
  unfold Obligations.ResetEdgeLoadsTheResetValues
  refine ⟨fun s inValid inFrame => ⟨_, step_drive s _, ?_⟩, reset_bank⟩
  rw [load_bank, sampleBank_of_noFrame (.inl rfl)]
  rfl

/-- Settles O39: the step at any other bank is the step. -/
theorem powerOnBankIsErasedByOneEdge : Obligations.PowerOnBankIsErasedByOneEdge := by
  unfold Obligations.PowerOnBankIsErasedByOneEdge
  exact fun s b => step_load b s

/-- Settles O41: the reset bank is the IDLE pattern. -/
theorem resetBankIsConsistent : Obligations.ResetBankIsConsistent := by
  unfold Obligations.ResetBankIsConsistent
  rw [reset_bank]
  exact idle_consistent

end

section
/-! PROOFS. The bits of a frame that is shifted in from the wire and of one packed from four serial units (`20_memory.md`
R40, R41), the banks of a run through listed samples (R47), and what an instruction leaves unchanged (R45). -/

namespace Sys2Proof

/-! ## The bits of a shifted word -/

@[simp] theorem shiftIn_getLsbD_zero (w : Word) (b : Bool) : (shiftIn w b).getLsbD 0 = b := by
  simp [shiftIn]

@[simp] theorem shiftIn_getLsbD_succ (w : Word) (b : Bool) {i : Nat} (hi : i + 1 < 32) :
    (shiftIn w b).getLsbD (i + 1) = w.getLsbD i := by
  have hw : w.getLsbD i = w[i] := BitVec.getLsbD_eq_getElem _
  simp [shiftIn, hi, hw]

theorem shiftInAll_concat (bits : List Bool) (b : Bool) : shiftInAll (bits ++ [b]) = shiftIn (shiftInAll bits) b :=
  List.foldl_concat ..

/-- The last bit on the wire is bit 0: a shifted word reads the wire backwards, and what does not fit is lost at the top. -/
theorem shiftInAll_getLsbD (bits : List Bool) {i : Nat} (hi : i < 32) :
    (shiftInAll bits).getLsbD i = bits.reverse.getD i false := by
  induction bits using List.reverseRecOn generalizing i with
  | nil => exact BitVec.getLsbD_zero
  | append_singleton bits b ih =>
    rw [shiftInAll_concat, List.reverse_concat]
    cases i with
    | zero => rw [shiftIn_getLsbD_zero, List.getD_cons_zero]
    | succ i => rw [shiftIn_getLsbD_succ _ _ hi, ih (by omega), List.getD_cons_succ]

/-! ## The bits of a unit on the wire -/

/-- A unit's wire bits, read backwards, are its bits by position; past the unit's end both are 0. -/
theorem getD_reverse_wireBits (b : SerialUnit) (i : Nat) : (wireBits b).reverse.getD i false = b.getLsbD i := by
  obtain hi | hi := Nat.lt_or_ge i 8
  · interval_cases i <;> rfl
  · rw [BitVec.getLsbD_of_ge b i hi]
    exact List.getD_eq_default _ _ hi

/-- A wire that ends in a whole unit, read backwards, joins as a word that ends in this unit does. -/
theorem getD_reverse_append_wireBits (bits : List Bool) (b : SerialUnit) (i : Nat) :
    (bits ++ wireBits b).reverse.getD i false = if i < 8 then b.getLsbD i else bits.reverse.getD (i - 8) false := by
  have hlen : (wireBits b).reverse.length = 8 := rfl
  rw [List.reverse_append]
  split_ifs with hi
  · rw [List.getD_append _ _ _ _ (hi.trans_eq hlen.symm), getD_reverse_wireBits]
  · rw [List.getD_append_right _ _ _ _ (hlen.trans_le (Nat.le_of_not_lt hi)), hlen]

/-! ## A frame of four units -/

section
variable (b0 b1 b2 b3 : SerialUnit)

theorem packUnits_unit0 : (packUnits b0 b1 b2 b3).extractLsb' 24 8 = b0 := by
  rw [packUnits, BitVec.extractLsb'_append_eq_of_le (by decide), BitVec.extractLsb'_append_eq_of_le (by decide)]
  exact BitVec.extractLsb'_append_eq_left

theorem packUnits_unit1 : (packUnits b0 b1 b2 b3).extractLsb' 16 8 = b1 := by
  rw [packUnits, BitVec.extractLsb'_append_eq_of_le (by decide), BitVec.extractLsb'_append_eq_of_le (by decide)]
  exact BitVec.extractLsb'_append_eq_right

theorem packUnits_unit2 : (packUnits b0 b1 b2 b3).extractLsb' 8 8 = b2 := by
  rw [packUnits, BitVec.extractLsb'_append_eq_of_le (by decide)]
  exact BitVec.extractLsb'_append_eq_right

theorem packUnits_unit3 : (packUnits b0 b1 b2 b3).extractLsb' 0 8 = b3 :=
  BitVec.extractLsb'_append_eq_right

/-- The wire and the packing build one word: both split, unit by unit from the low end, into the same bits (R41). -/
theorem shiftInAll_wireBits :
    shiftInAll (wireBits b0 ++ wireBits b1 ++ wireBits b2 ++ wireBits b3) = packUnits b0 b1 b2 b3 := by
  apply BitVec.eq_of_getLsbD_eq
  intro i hi
  rw [shiftInAll_getLsbD _ hi, packUnits]
  simp only [getD_reverse_append_wireBits, getD_reverse_wireBits, BitVec.getLsbD_append]

end

end Sys2Proof

namespace Sys2Proof.Machine

/-! ## The banks of a run -/

/-- The valid strobe of an edge is that edge's own `in_valid`, unless it resets (R47 (c)). -/
@[simp] theorem sampleBank_v (p : Sample) : (sampleBank p).v = (p.inValid && !p.rst) := by
  obtain ⟨rst, inValid, inFrame⟩ := p
  cases rst <;> cases inValid <;> rfl

/-- A run through listed samples shows the bank of each, in their order. -/
theorem runBanks_listed (ps qs : List Sample) (s : State) (h : s.pending = ps ++ qs) :
    runBanks ps.length s = ps.map sampleBank := by
  induction ps generalizing s with
  | nil => rfl
  | cons p ps ih => rw [List.length_cons, runBanks_succ (step_of_cons h), ih _ rfl, List.map_cons]

end Sys2Proof.Machine

open Sys2Proof Sys2Proof.Machine

/-- Settles O9: the places of the four units, the word their wire bits build, and the position of the k-th wire bit. -/
theorem serialUnitsFillTheFrameFromTheTop : Obligations.SerialUnitsFillTheFrameFromTheTop := by
  unfold Obligations.SerialUnitsFillTheFrameFromTheTop
  refine ⟨fun b0 b1 b2 b3 => ?_, fun bits hlen k hk => ?_⟩
  · exact ⟨packUnits_unit0 .., packUnits_unit1 .., packUnits_unit2 .., packUnits_unit3 .., shiftInAll_wireBits ..⟩
  · have hpos : bits.length - 1 - (31 - k) = k := by omega
    rw [shiftInAll_getLsbD bits (by omega), List.getD_reverse _ (by omega), hpos]

/-- Settles O43: the banks of the run are those of its samples, one for one, and so is the valid strobe in each. -/
theorem readingsAppearInOrderOneEdgeLater : Obligations.ReadingsAppearInOrderOneEdgeLater := by
  unfold Obligations.ReadingsAppearInOrderOneEdgeLater
  intro ps qs s h
  have hrun := runBanks_listed ps qs s h
  refine ⟨hrun, ?_⟩
  rw [hrun, List.map_map]
  exact List.map_congr_left fun p _ => sampleBank_v p

/-- Settles O32: accepting a frame loads the bank, and the environment is no part of the bank. -/
theorem framesWriteTheBankOnly : Obligations.FramesWriteTheBankOnly := by
  unfold Obligations.FramesWriteTheBankOnly
  exact fun _ _ _ h => exec_environment h

end

section
/-! PROOFS. The two directions of the frame encoding (`30_encoding.md` R60, R70), the class table as a partition of the words
(R76), and the code that each of its rows states (R110). -/

namespace Sys2Proof

/-! ## Round trips -/

@[simp] theorem extract_encode (i : Instr) : extract (encode i) = i.fields := extract_pack _

/-- Every bit of a frame is an operand of the decoded instruction or fixed by its row. -/
@[simp] theorem encode_decode (w : Word) : encode (decode w) = w := by
  rw [encode, fields_decode, pack_extract]

/-- The chain of bit tests on an encoded frame stops at the row that fixed those bits. -/
@[simp] theorem decode_encode (i : Instr) : decode (encode i) = i := by
  rw [decode_eq_chain, encode]
  cases i with
  | frameOc | frameScg | frameScv | frameRsv3 | frameRsv17 | frameGfu | frameNone => simp [Instr.fields]

/-! ## The rows of the class table -/

theorem FrameClass.holds_iff (c : FrameClass) (w : Word) : c.holds w = true ↔ w &&& c.mask = c.pattern := beq_iff_eq

/-- An encoded frame lies in the row of its instruction's class. -/
theorem holds_frameClass_encode (i : Instr) : i.frameClass.holds (encode i) = true := by
  cases i with
  | frameOc => exact Laws.ClassBits.frameOc ..
  | frameScg => exact Laws.ClassBits.frameScg ..
  | frameScv => exact Laws.ClassBits.frameScv ..
  | frameRsv3 => exact Laws.ClassBits.frameRsv3 ..
  | frameRsv17 => exact Laws.ClassBits.frameRsv17 ..
  | frameGfu => exact Laws.ClassBits.frameGfu ..
  | frameNone => exact Laws.ClassBits.frameNone ..

/-- Every word lies in the row that the decoder picks for it. -/
theorem holds_frameClass_decode (w : Word) : (decode w).frameClass.holds w = true := by
  simpa using holds_frameClass_encode (decode w)

/-- A word lies in no other row than the one that the decoder picks. -/
theorem frameClass_decode_of_holds {c : FrameClass} {w : Word} (h : c.holds w = true) : (decode w).frameClass = c := by
  rw [decode_eq_chain]
  cases c with
  | oc => rw [holds_oc] at h; simp_all [Instr.frameClass]
  | scg => rw [holds_scg] at h; simp_all [Instr.frameClass]
  | scv => rw [holds_scv] at h; simp_all [Instr.frameClass]
  | rsv3 => rw [holds_rsv3] at h; simp_all [Instr.frameClass]
  | rsv17 => rw [holds_rsv17] at h; simp_all [Instr.frameClass]
  | gfu => rw [holds_gfu] at h; simp_all [Instr.frameClass]
  | none => rw [holds_none] at h; simp_all [Instr.frameClass]

end Sys2Proof

namespace Sys2Proof.Machine

/-- The code of a row of the class table (R70, R27). -/
def classCode : FrameClass → FaultCodeWord
  | .oc => codeOc
  | .scg => codeScg
  | .scv => codeScv
  | .rsv3 => codeRsv
  | .rsv17 => codeRsv
  | .gfu => codeGfu
  | .none => codeNone

theorem classVerdict_fst (i : Instr) : (classVerdict i).1 = classCode i.frameClass := by
  cases i <;> rfl

/-- The priority chain gives the code of the row that the word lies in. -/
theorem faultCode_of_row {c : FrameClass} {w : Word} (h : w &&& c.mask = c.pattern) :
    faultCode (extract w) = classCode c := by
  have hclass : (decode w).frameClass = c := frameClass_decode_of_holds ((c.holds_iff w).mpr h)
  rw [← hclass, ← classVerdict_fst, classVerdict_decode]

end Sys2Proof.Machine

open Sys2Proof Sys2Proof.Machine

/-- Settles O6: the decoder's bit tests meet the bits that the instruction's own row fixed, constructor by constructor. -/
theorem decodeEncodeRoundTrip : Obligations.DecodeEncodeRoundTrip := by
  unfold Obligations.DecodeEncodeRoundTrip
  exact decode_encode

/-- Settles O7: the decoded instruction's fields are the frame's, and these pack to the frame. -/
theorem encodeDecodeRoundTrip : Obligations.EncodeDecodeRoundTrip := by
  unfold Obligations.EncodeDecodeRoundTrip
  exact encode_decode

/-- Settles O5: a word lies in the row of its decoded instruction and in no other. -/
theorem frameClassesPartitionTheWords : Obligations.FrameClassesPartitionTheWords := by
  unfold Obligations.FrameClassesPartitionTheWords
  intro w
  have hrow := ((decode w).frameClass.holds_iff w).mp (holds_frameClass_decode w)
  refine ⟨⟨_, hrow, fun c hc => ?_⟩, hrow⟩
  exact (frameClass_decode_of_holds ((c.holds_iff w).mpr hc)).symm

/-- Settles O8: each clause is one row of the class table, and `faultCode_of_row` gives its code. -/
theorem classRowsSelectTheChainsCode : Obligations.ClassRowsSelectTheChainsCode := by
  unfold Obligations.ClassRowsSelectTheChainsCode
  exact fun w => ⟨faultCode_of_row (c := .oc), faultCode_of_row (c := .scg), faultCode_of_row (c := .scv),
    faultCode_of_row (c := .rsv3), faultCode_of_row (c := .rsv17), faultCode_of_row (c := .gfu),
    faultCode_of_row (c := .none)⟩

/-- Settles O1: seven closed words, decoded. -/
theorem writtenOutWordsDecode : Obligations.WrittenOutWordsDecode := by
  unfold Obligations.WrittenOutWordsDecode
  decide

end

section
/-! PROOFS. `Assemble` (`30_encoding.md` R75) as the packing of its operands' low bits, and the number that a packed frame
stands for (R101). -/

namespace Sys2Proof

/-! ## A packed frame as a number -/

/-- Joining bit vectors is a sum of numbers, for the low part fits below the high one. -/
theorem toNat_append_eq_add {m n : Nat} (x : BitVec m) (y : BitVec n) : (x ++ y).toNat = x.toNat * 2 ^ n + y.toNat := by
  rw [BitVec.toNat_append, ← Nat.shiftLeft_add_eq_or_of_lt y.isLt, Nat.shiftLeft_eq]

/-- No bit of a packed frame is lost or counted twice (R101). -/
theorem pack_toNat (f : DecodedFields) :
    (pack f).toNat = f.hotJunctionRaw.toNat * 2 ^ 18 + f.reservedBit17.toNat * 2 ^ 17 + f.generalFault.toNat * 2 ^ 16
      + f.coldJunctionRaw.toNat * 2 ^ 4 + f.reservedBit3.toNat * 2 ^ 3 + f.shortToVcc.toNat * 2 ^ 2
      + f.shortToGround.toNat * 2 + f.openCircuit.toNat := by
  simp only [pack, toNat_append_eq_add, BitVec.toNat_ofBool]
  ring

/-! ## The fields of an assembled frame -/

/-- The fields of `Assemble`'s frame: the two signed operands cut to the width of their field, and the flags (R75). -/
def FrameArgs.fields (a : FrameArgs) : DecodedFields where
  hotJunctionRaw := BitVec.ofInt 14 a.hot
  reservedBit17 := a.r17
  generalFault := a.gf
  coldJunctionRaw := BitVec.ofInt 12 a.cold
  reservedBit3 := a.r3
  shortToVcc := a.scv
  shortToGround := a.scg
  openCircuit := a.oc

/-- Cutting an integer to a field of `n` bits leaves its non-negative remainder. -/
theorem toNat_ofInt_cast (n : Nat) (i : ℤ) : ((BitVec.ofInt n i).toNat : ℤ) = i % 2 ^ n := by
  rw [BitVec.toNat_ofInt, Int.toNat_of_nonneg (Int.emod_nonneg _ (by positivity))]
  push_cast
  rfl

theorem toInt_bool_eq_toNat (b : Bool) : b.toInt = (b.toNat : ℤ) := by
  cases b <;> rfl

/-- The sum that R75 writes is the number of the packed fields, whatever the operands. -/
theorem pack_fields_toNat (a : FrameArgs) :
    ((pack a.fields).toNat : ℤ) = (a.hot % 16384) * 2 ^ 18 + a.r17.toInt * 2 ^ 17 + a.gf.toInt * 2 ^ 16
      + (a.cold % 4096) * 2 ^ 4 + a.r3.toInt * 2 ^ 3 + a.scv.toInt * 2 ^ 2 + a.scg.toInt * 2 + a.oc.toInt := by
  rw [pack_toNat]
  push_cast
  simp only [FrameArgs.fields, toNat_ofInt_cast, toInt_bool_eq_toNat]
  norm_num

/-- `Assemble` packs its operands: its sum does not wrap around. -/
theorem assemble_eq_pack (a : FrameArgs) : assemble a = pack a.fields := by
  rw [assemble, pow_one, ← pack_fields_toNat, BitVec.ofInt_natCast, BitVec.ofNat_toNat, BitVec.setWidth_eq]

@[simp] theorem extract_assemble (a : FrameArgs) : extract (assemble a) = a.fields := by
  rw [assemble_eq_pack, extract_pack]

/-- The operand ranges of a well-formed `FRAME` line, as bounds (R74). -/
theorem FrameArgs.wellFormed_iff (a : FrameArgs) :
    a.wellFormed = true ↔ (-8192 ≤ a.hot ∧ a.hot ≤ 8191) ∧ (-2048 ≤ a.cold ∧ a.cold ≤ 2047) := by
  simp [FrameArgs.wellFormed, and_assoc]

end Sys2Proof

namespace Sys2Proof.Machine

/-- Sign extension undoes the cut of an operand that is in the hot field's range. -/
theorem sx14_ofInt {n : ℤ} (h : -8192 ≤ n ∧ n ≤ 8191) : sx14 (BitVec.ofInt 14 n) = n := by
  rw [sx14_eq_toInt]
  exact BitVec.toInt_ofInt_eq_self (by norm_num) (by omega) (by omega)

/-- Sign extension undoes the cut of an operand that is in the cold field's range. -/
theorem sx12_ofInt {m : ℤ} (h : -2048 ≤ m ∧ m ≤ 2047) : sx12 (BitVec.ofInt 12 m) = m := by
  rw [sx12_eq_toInt]
  exact BitVec.toInt_ofInt_eq_self (by norm_num) (by omega) (by omega)

end Sys2Proof.Machine

open Sys2Proof Sys2Proof.Machine

/-- Settles O4: the assembled frame packs the operands' own fields; their ranges serve the two signed operands only. -/
theorem assembledFrameGivesItsOperandsBack : Obligations.AssembledFrameGivesItsOperandsBack := by
  unfold Obligations.AssembledFrameGivesItsOperandsBack
  refine ⟨fun a ha => ?_, by decide⟩
  obtain ⟨hhot, hcold⟩ := a.wellFormed_iff.mp ha
  rw [extract_assemble, assemble_eq_pack]
  exact ⟨pack_fields_toNat a, sx14_ofInt hhot, sx12_ofInt hcold, rfl, rfl, rfl, rfl, rfl, rfl⟩

end

section
/-! PROOFS. The numeric patterns that an edge can drive (`30_encoding.md` R73; `42_temp_convert.md` R147), the effect of a
stimulus line (R74), and the reserved bits of a frame (R71). -/

namespace Sys2Proof.Machine

/-! ## The encoders give normal numbers -/

theorem classify32_joinF32 (neg : Bool) {biased trail : Nat} (h1 : 1 ≤ biased) (h2 : biased ≤ 254)
    (hT : trail < 2 ^ 23) : classify32 (joinF32 neg biased trail) = .normal := by
  rw [classify32, biasedExp_joinF32 neg (by omega) hT, if_neg (by omega), if_neg (by omega)]

/-- A nonzero integer below `2^24`, scaled down by no more than the normal range allows, is a normal number (R137). -/
theorem classify32_f32Exact {i : ℤ} {k : Nat} (h0 : i ≠ 0) (hi : i.natAbs < 2 ^ 24) (hk : k ≤ 126) :
    classify32 (f32Exact i k) = .normal := by
  have hlog : i.natAbs.log2 < 24 := (Nat.log2_lt (Int.natAbs_ne_zero.mpr h0)).mpr hi
  rw [f32Exact, if_neg h0]
  exact classify32_joinF32 _ (by omega) (by omega) (Nat.mod_lt _ (by norm_num))

/-- The exponent of R141 is the difference of the two logarithms or one less. -/
theorem rneExp_bounds (a den : Nat) :
    (a.log2 : ℤ) - den.log2 - 1 ≤ rneExp a den ∧ rneExp a den ≤ (a.log2 : ℤ) - den.log2 := by
  simp only [rneExp]
  split_ifs <;> omega

/-- The rounding encoder gives a normal number where the exponent of R141, and the one after it, are those of normal
numbers. -/
theorem classify32_f32Rne {num : ℤ} {den : Nat} (hn : num ≠ 0) (hd : 0 < den)
    (hlo : -126 ≤ rneExp num.natAbs den) (hhi : rneExp num.natAbs den ≤ 126) :
    classify32 (f32Rne num den) = .normal := by
  obtain ⟨-, hq⟩ := roundNearestEven_range (Int.natAbs_pos.mpr hn) hd
  simp only [f32Rne]
  split_ifs with hcarry
  · exact classify32_joinF32 _ (by omega) (by omega) (by norm_num)
  · exact classify32_joinF32 _ (by omega) (by omega) (by omega)

/-- Numerator and denominator of up to 126 bits keep the exponent of R141 in the normal range. -/
theorem classify32_f32Rne_of_lt {num : ℤ} {den : Nat} (hn : num ≠ 0) (hd : 0 < den)
    (hnum : num.natAbs < 2 ^ 126) (hden : den < 2 ^ 126) : classify32 (f32Rne num den) = .normal := by
  obtain ⟨hlo, hhi⟩ := rneExp_bounds num.natAbs den
  have hlogn : num.natAbs.log2 < 126 := (Nat.log2_lt (Int.natAbs_ne_zero.mpr hn)).mpr hnum
  have hlogd : den.log2 < 126 := (Nat.log2_lt hd.ne').mpr hden
  exact classify32_f32Rne hn hd (by omega) (by omega)

/-! ## The converter's wires -/

theorem sx14_range (hot : HotField) : -8192 ≤ sx14 hot ∧ sx14 hot ≤ 8191 := by
  rw [sx14_eq_toInt]
  have hlo := hot.le_toInt
  have hhi := hot.toInt_lt
  omega

theorem sx12_range (cold : ColdField) : -2048 ≤ sx12 cold ∧ sx12 cold ≤ 2047 := by
  rw [sx12_eq_toInt]
  have hlo := cold.le_toInt
  have hhi := cold.toInt_lt
  omega

/-- An exact result is `+0` or a normal number. -/
theorem f32Exact_zero_or_normal {i : ℤ} {k : Nat} (hi : i.natAbs < 2 ^ 24) (hk : k ≤ 126) :
    f32Exact i k = 0x00000000 ∨ classify32 (f32Exact i k) = .normal := by
  obtain rfl | h0 := eq_or_ne i 0
  · exact .inl (if_pos rfl)
  · exact .inr (classify32_f32Exact h0 hi hk)

theorem convert_hotC_zero_or_normal (f : DecodedFields) :
    (convert f).hotC = 0x00000000 ∨ classify32 (convert f).hotC = .normal := by
  have hrange := sx14_range f.hotJunctionRaw
  exact f32Exact_zero_or_normal (by omega) (by decide)

theorem convert_coldC_zero_or_normal (f : DecodedFields) :
    (convert f).coldC = 0x00000000 ∨ classify32 (convert f).coldC = .normal := by
  have hrange := sx12_range f.coldJunctionRaw
  exact f32Exact_zero_or_normal (by omega) (by decide)

/-- The numerator `9*n + 640` is never zero, since 9 does not divide 640, so no hot Fahrenheit result is a zero. -/
theorem convert_hotF_normal (f : DecodedFields) : classify32 (convert f).hotF = .normal := by
  have hrange := sx14_range f.hotJunctionRaw
  simp only [convert, cvtHF, hotFNum, hotFDen]
  exact classify32_f32Rne_of_lt (by omega) (by norm_num) (by omega) (by norm_num)

/-- The numerator `9*m + 2560` is never zero, since 9 does not divide 2560, so no cold Fahrenheit result is a zero. -/
theorem convert_coldF_normal (f : DecodedFields) : classify32 (convert f).coldF = .normal := by
  have hrange := sx12_range f.coldJunctionRaw
  simp only [convert, cvtCF, coldFNum, coldFDen]
  exact classify32_f32Rne_of_lt (by omega) (by norm_num) (by omega) (by norm_num)

/-! ## What a numeric register can hold after an edge -/

/-- The patterns that R73 leaves to a numeric output. -/
def NumericPattern (x : Word) : Prop := x = 0x7FC00000 ∨ x = 0x00000000 ∨ classify32 x = .normal

/-- A gate adds only the invalid pattern to what its wire carries. -/
theorem numericPattern_gate {wire : Word} (h : wire = 0x00000000 ∨ classify32 wire = .normal) (tv : Bool) :
    NumericPattern (gate tv wire) := by
  cases tv with
  | true => rw [gate_true]; exact .inr h
  | false => rw [gate_false]; exact .inl rfl

/-- All four numeric registers hold such a pattern. -/
def Bank.NumericPatterns (b : Bank) : Prop := ∀ x ∈ [b.hotC, b.hotF, b.coldC, b.coldF], NumericPattern x

theorem idle_numericPatterns : Bank.idle.NumericPatterns := by
  have hqnan : NumericPattern Config.qnan := .inl rfl
  simpa [Bank.NumericPatterns, Bank.idle] using hqnan

/-- The four registers of a reading are the converter's four wires, each behind the gate. -/
theorem reading_numericPatterns (w : Word) : (reading w).NumericPatterns := by
  simp only [Bank.NumericPatterns, List.forall_mem_cons, reading_eq, readingBank]
  exact ⟨numericPattern_gate (convert_hotC_zero_or_normal _) _, numericPattern_gate (.inr (convert_hotF_normal _)) _,
    numericPattern_gate (convert_coldC_zero_or_normal _) _, numericPattern_gate (.inr (convert_coldF_normal _)) _,
    List.forall_mem_nil _⟩

theorem sampleBank_numericPatterns (p : Sample) : (sampleBank p).NumericPatterns :=
  sampleBank_induction idle_numericPatterns reading_numericPatterns p

/-! ## The samples of a stimulus line -/

/-- An accepted frame leaves its reading (R166). -/
theorem sampleBank_of_frame {p : Sample} {w : Word} (h : (!p.rst && p.inValid && p.inFrame == w) = true) :
    sampleBank p = reading w := by
  simp only [Bool.and_eq_true, Bool.not_eq_true', beq_iff_eq] at h
  obtain ⟨⟨hr, hv⟩, rfl⟩ := h
  rw [sampleBank, hr, hv, if_neg Bool.false_ne_true, if_pos rfl]

/-! ## Reserved bits -/

/-- With a reserved bit set the chain stops at the reserved-bit test at the latest (R71, R110). -/
theorem faultCode_of_reservedBit {f : DecodedFields} (h : f.reservedBit17 = true ∨ f.reservedBit3 = true) :
    faultCode f = if f.openCircuit then codeOc else if f.shortToGround then codeScg
      else if f.shortToVcc then codeScv else codeRsv := by
  rw [faultCode, if_pos (Bool.or_eq_true_iff.mpr h)]

theorem faultCode_ne_zero_of_reservedBit {f : DecodedFields} (h : f.reservedBit17 = true ∨ f.reservedBit3 = true) :
    faultCode f ≠ 0 := by
  rw [faultCode_of_reservedBit h]
  split_ifs <;> decide

theorem faultCode_eq_four_iff_of_reservedBit {f : DecodedFields}
    (h : f.reservedBit17 = true ∨ f.reservedBit3 = true) :
    faultCode f = 4 ↔ f.openCircuit = false ∧ f.shortToGround = false ∧ f.shortToVcc = false := by
  rw [faultCode_of_reservedBit h]
  split_ifs <;> simp [*, codeOc, codeScg, codeScv, codeRsv]

end Sys2Proof.Machine

open Sys2Proof Sys2Proof.Machine

/-- Settles O42: the code is at most 5, and every numeric register is gated from a wire that is `+0` or normal. -/
theorem reservedOutputsAreNeverDriven : Obligations.ReservedOutputsAreNeverDriven := by
  unfold Obligations.ReservedOutputsAreNeverDriven
  intro s t h
  rw [step_eq_load] at h
  cases h
  rw [load_bank]
  have hcode := (sampleBank_consistent s.nextSample).code_le_five
  refine ⟨fun h6 => ?_, fun h7 => ?_, sampleBank_numericPatterns s.nextSample⟩
  · rw [h6] at hcode
    exact absurd hcode (by decide)
  · rw [h7] at hcode
    exact absurd hcode (by decide)

/-- Settles O45: the sample of a line selects the arm that the line names. -/
theorem stimulusLinesMeanTheirStimuli : Obligations.StimulusLinesMeanTheirStimuli := by
  unfold Obligations.StimulusLinesMeanTheirStimuli
  intro l p s _ henc
  refine ⟨_, step_drive s p, ?_⟩
  rw [load_bank]
  cases l with
  | rst => exact sampleBank_of_noFrame (.inl henc)
  | idle =>
    obtain ⟨-, hv⟩ := Bool.and_eq_true_iff.mp henc
    exact sampleBank_of_noFrame (.inr (Bool.not_inj hv))
  | frameWord w => exact sampleBank_of_frame henc
  | frameArgs a => exact sampleBank_of_frame henc

/-- Settles O49: the chain's answer under a reserved bit, read in the registers of the frame's reading. -/
theorem reservedBitsAreReported : Obligations.ReservedBitsAreReported := by
  unfold Obligations.ReservedBitsAreReported
  intro w s h
  refine ⟨_, exec_decode w s, ?_, reading_raw w, ?_⟩
  · rw [load_bank, reading_tv, decide_eq_false (faultCode_ne_zero_of_reservedBit h)]
  · rw [load_bank, reading_fc]
    exact faultCode_eq_four_iff_of_reservedBit h

end

section
/-! PROOFS. The numeric fields as quotients of the frame (`40_frame_decode.md` R93, R94), and the frame as the sum and the
assembly of its extracted fields (R101). -/

namespace Sys2Proof

theorem xHot_toNat (w : Word) : (xHot w).toNat = w.toNat / 2 ^ 18 := by
  have hquot : w.toNat / 2 ^ 18 < 2 ^ 14 := Nat.div_lt_of_lt_mul w.isLt
  rw [xHot, BitVec.extractLsb'_toNat, Nat.shiftRight_eq_div_pow, Nat.mod_eq_of_lt hquot]

theorem xCold_toNat (w : Word) : (xCold w).toNat = w.toNat / 2 ^ 4 % 2 ^ 12 := by
  rw [xCold, BitVec.extractLsb'_toNat, Nat.shiftRight_eq_div_pow]

/-- The fields determine the frame. -/
theorem extract_injective : Function.Injective extract := Function.LeftInverse.injective pack_extract

/-- `Assemble` on the sign-extended fields packs the fields: cutting an operand undoes its sign extension. -/
theorem assemble_signedFields (f : DecodedFields) :
    assemble ⟨Machine.sx14 f.hotJunctionRaw, Machine.sx12 f.coldJunctionRaw, f.reservedBit17, f.generalFault,
      f.reservedBit3, f.shortToVcc, f.shortToGround, f.openCircuit⟩ = pack f := by
  rw [assemble_eq_pack, FrameArgs.fields, Machine.sx14_eq_toInt, Machine.sx12_eq_toInt, BitVec.ofInt_toInt,
    BitVec.ofInt_toInt]

end Sys2Proof

open Sys2Proof Sys2Proof.Machine

/-- Settles O3: the frame is the packing of its fields, so it is the sum that a packed frame stands for. -/
theorem frameIsTheSumOfItsFields : Obligations.FrameIsTheSumOfItsFields := by
  unfold Obligations.FrameIsTheSumOfItsFields
  refine ⟨fun w => ?_, fun w => ?_, fun w w' h => extract_injective h⟩
  · have hsum := pack_toNat (extract w)
    rwa [pack_extract] at hsum
  · exact (assemble_signedFields (extract w)).trans (pack_extract w)

/-- Settles O2: each field is its quotient, and its width bounds it. -/
theorem numericFieldsAreUnsignedQuotients : Obligations.NumericFieldsAreUnsignedQuotients := by
  unfold Obligations.NumericFieldsAreUnsignedQuotients
  exact fun w => ⟨⟨xHot_toNat w, Nat.le_of_lt_succ (xHot w).isLt⟩, xCold_toNat w, Nat.le_of_lt_succ (xCold w).isLt⟩

end

section
/-! PROOFS. The classifier's code row by row (`41_fault_classify.md` R121), the source's category in the registers of an
accepted frame (R120), and the bank that a frame of each class loads (R111 to R117). -/

namespace Sys2Proof

/-- The frame is of the class whose row it lies in (R70). -/
theorem frameClass_decode_of_row {c : FrameClass} {w : Word} (h : w &&& c.mask = c.pattern) :
    (decode w).frameClass = c :=
  frameClass_decode_of_holds ((c.holds_iff w).mpr h)

end Sys2Proof

namespace Sys2Proof.Machine

/-! ## The classifier -/

/-- The mark that goes with a code is the code's comparison with `NONE` (R119). -/
theorem code_and_mark {f : DecodedFields} {code : FaultCodeWord} (h : faultCode f = code) :
    faultCode f = code ∧ temperaturesValid (faultCode f) = decide (code = 0) := by
  rw [temperaturesValid_eq, h]
  exact ⟨rfl, rfl⟩

/-- Code 5 is the general fault that the source leaves without a category (R117, R120). -/
theorem faultCode_eq_gfu_iff (f : DecodedFields) :
    faultCode f = 5 ↔ f.generalFault = true ∧ sourceClassify f = .none := by
  unfold faultCode sourceClassify
  split_ifs <;> simp [*, codeOc, codeScg, codeScv, codeRsv, codeGfu, codeNone]

/-! ## The frame classes -/

/-- A frame of a row with a fault code is of that row's class, and loads the IDLE pattern but for the valid bit, the frame,
the row's code and the mirror of bit 16 (R111 to R115, R117). -/
theorem exec_decode_of_faultRow {c : FrameClass} {w : Word} (h : w &&& c.mask = c.pattern) (hc : classCode c ≠ 0)
    (s : State) :
    (decode w).frameClass = c ∧
    exec (decode w) s =
      .next (s.load { Bank.idle with v := true, raw := w, fc := classCode c, gf := w.getLsbD 16 }) := by
  have hcode : faultCode (extract w) = classCode c := faultCode_of_row h
  refine ⟨frameClass_decode_of_row h, ?_⟩
  rw [exec_decode, reading_of_fault (hcode.trans_ne hc), hcode]

/-- Without a fault the numeric registers show the converter's wires (R116, R163). -/
theorem reading_of_noFault {w : Word} (h : faultCode (extract w) = 0) :
    reading w =
      { v := true, raw := w, fc := 0, gf := w.getLsbD 16, tv := true,
        hotC := (convert (extract w)).hotC, hotF := (convert (extract w)).hotF,
        coldC := (convert (extract w)).coldC, coldF := (convert (extract w)).coldF } := by
  rw [reading_eq, temperaturesValid_eq, h, decide_eq_true rfl, readingBank_of_valid, generalFaultMirror]
  simp only [extract, xGf]

/-- The chain answers `NONE` only past its last test, the general-fault bit. -/
theorem generalFault_of_faultCode_none {f : DecodedFields} (h : faultCode f = 0) : f.generalFault = false := by
  unfold faultCode at h
  split_ifs at h with hoc hscg hscv hrsv hgf
  case neg => exact Bool.eq_false_of_not_eq_true hgf
  all_goals exact absurd h (by decide)

end Sys2Proof.Machine

open Sys2Proof Sys2Proof.Machine

/-- Settles O11: the registers are those of the frame's reading, so all three clauses are about the chain's code. -/
theorem sourceCategoryIsRecovered : Obligations.SourceCategoryIsRecovered := by
  unfold Obligations.SourceCategoryIsRecovered
  intro w s
  refine ⟨_, exec_decode w s, ?_⟩
  rw [load_bank, reading_fc, reading_gf]
  exact ⟨recoverCategory_faultCode _, rfl, (faultCode_eq_gfu_iff (extract w)).symm⟩

/-- Settles O24: the row of `FRAME.OC`, whose code is 1. -/
theorem openCircuitFrame : Obligations.OpenCircuitFrame := by
  unfold Obligations.OpenCircuitFrame
  exact fun w s h => exec_decode_of_faultRow (c := .oc) h (by decide) s

/-- Settles O25: the row of `FRAME.SCG`, whose code is 2. -/
theorem shortToGroundFrame : Obligations.ShortToGroundFrame := by
  unfold Obligations.ShortToGroundFrame
  exact fun w s h => exec_decode_of_faultRow (c := .scg) h (by decide) s

/-- Settles O26: the row of `FRAME.SCV`, whose code is 3. -/
theorem shortToSupplyFrame : Obligations.ShortToSupplyFrame := by
  unfold Obligations.ShortToSupplyFrame
  exact fun w s h => exec_decode_of_faultRow (c := .scv) h (by decide) s

/-- Settles O27: the row of `FRAME.RSV3`, the first of the two whose code is 4. -/
theorem reservedBitThreeFrame : Obligations.ReservedBitThreeFrame := by
  unfold Obligations.ReservedBitThreeFrame
  exact fun w s h => exec_decode_of_faultRow (c := .rsv3) h (by decide) s

/-- Settles O28: the row of `FRAME.RSV17`, the second of the two whose code is 4. -/
theorem reservedBitSeventeenFrame : Obligations.ReservedBitSeventeenFrame := by
  unfold Obligations.ReservedBitSeventeenFrame
  exact fun w s h => exec_decode_of_faultRow (c := .rsv17) h (by decide) s

/-- Settles O29: the row of `FRAME.GFU`, whose code is 5; the mirror is then the bit that the chain stopped at. -/
theorem unclassifiedGeneralFaultFrame : Obligations.UnclassifiedGeneralFaultFrame := by
  unfold Obligations.UnclassifiedGeneralFaultFrame
  intro w s h
  have hgf : w.getLsbD 16 = true := generalFault_of_faultCode_gfu (faultCode_of_row (c := .gfu) h)
  have hrow := exec_decode_of_faultRow (c := .gfu) h (by decide) s
  rwa [hgf] at hrow

/-- Settles O30: the row of `FRAME.NONE`, the only one whose code opens the gates. -/
theorem healthyFrame : Obligations.HealthyFrame := by
  unfold Obligations.HealthyFrame
  intro w s h
  have hcode : faultCode (extract w) = 0 := faultCode_of_row (c := .none) h
  have hgf : w.getLsbD 16 = false := generalFault_of_faultCode_none hcode
  refine ⟨frameClass_decode_of_row (c := .none) h, ?_⟩
  rw [exec_decode, reading_of_noFault hcode, hgf, State.load]

/-- Settles O10: on each row the chain passes the tests that the row denies and stops at the one that it asserts. -/
theorem faultDecisionTable : Obligations.FaultDecisionTable := by
  unfold Obligations.FaultDecisionTable
  intro f
  refine ⟨rfl, fun hoc => ?_, fun hoc hscg => ?_, fun hoc hscg hscv => ?_, fun hoc hscg hscv hr3 => ?_,
    fun hoc hscg hscv hr3 hr17 => ?_, fun hoc hscg hscv hr3 hr17 hgf => ?_, fun hoc hscg hscv hr3 hr17 hgf => ?_⟩
  · exact code_and_mark (by simp [faultCode, hoc, codeOc])
  · exact code_and_mark (by simp [faultCode, hoc, hscg, codeScg])
  · exact code_and_mark (by simp [faultCode, hoc, hscg, hscv, codeScv])
  · exact code_and_mark (by simp [faultCode, hoc, hscg, hscv, hr3, codeRsv])
  · exact code_and_mark (by simp [faultCode, hoc, hscg, hscv, hr17, codeRsv])
  · exact code_and_mark (by simp [faultCode, hoc, hscg, hscv, hr3, hr17, hgf, codeGfu])
  · exact code_and_mark (by simp [faultCode, hoc, hscg, hscv, hr3, hr17, hgf, codeNone])

/-- Settles O12: the chain is a function of the six single bits, and the converter of the two numeric fields. -/
theorem classifierAndConverterAreIndependent : Obligations.ClassifierAndConverterAreIndependent := by
  unfold Obligations.ClassifierAndConverterAreIndependent
  refine fun f g => ⟨fun h17 hgf h3 hscv hscg hoc => ⟨?_, hgf⟩, fun hhot hcold => ?_⟩
  · simp only [faultCode, h17, hgf, h3, hscv, hscg, hoc]
  · simp only [convert, hhot, hcold]

end

section
/-! PROOFS. Sign extension as Lean's own, for every width (`42_temp_convert.md` R131, R132, R144), and the converter's
numerators in two's complement (R145). -/

namespace Sys2Proof.Machine

/-- Writing the signed reading of a field in a wider word copies its top bit into every bit above the field (R144). -/
theorem ofInt_sext {N : Nat} (W : Nat) (u : BitVec N) :
    BitVec.ofInt W (sext u) = if u.msb then u.setWidth W ||| (BitVec.allOnes W <<< N) else u.setWidth W := by
  rw [sext_eq_toInt]
  change u.signExtend W = _
  cases hmsb : u.msb with
  | false => rw [if_neg Bool.false_ne_true, BitVec.signExtend_eq_setWidth_of_msb_false hmsb]
  | true =>
    rw [if_pos rfl]
    apply BitVec.eq_of_getLsbD_eq
    intro i hi
    rw [BitVec.getLsbD_signExtend, BitVec.getLsbD_or, BitVec.getLsbD_setWidth, BitVec.getLsbD_shiftLeft,
      BitVec.getLsbD_allOnes, hmsb]
    by_cases hiN : i < N
    · simp [hi, hiN]
    · have hsub : i - N < W := by omega
      simp [hi, hiN, hsub]

/-- A numerator `c * n + k` computed in a word that holds it is the numerator of the mathematical integers. -/
theorem toInt_mul_signExtend_add {N W : Nat} (u : BitVec N) (c k : Nat) (hW : 0 < W)
    (hlo : -2 ^ (W - 1) ≤ c * sext u + k) (hhi : c * sext u + k < 2 ^ (W - 1)) :
    (BitVec.ofNat W c * u.signExtend W + BitVec.ofNat W k).toInt = c * sext u + k := by
  have hword : BitVec.ofNat W c * u.signExtend W + BitVec.ofNat W k = BitVec.ofInt W (c * sext u + k) := by
    rw [BitVec.ofInt_add, BitVec.ofInt_mul, BitVec.ofInt_natCast, BitVec.ofInt_natCast, sext_eq_toInt,
      BitVec.signExtend]
  rw [hword, BitVec.toInt_ofInt_eq_self hW hlo hhi]

/-- A signed range of `w + 1` bits is part of every wider one. -/
theorem signedRange_mono {w W : Nat} (h : w + 1 ≤ W) : (2 : ℤ) ^ w ≤ 2 ^ (W - 1) :=
  pow_le_pow_right₀ (by norm_num) (by omega)

end Sys2Proof.Machine

open Sys2Proof Sys2Proof.Machine

/-- Settles O14: the top bit is bit `N - 1`, and the two field routines are the generic one by definition. -/
theorem signExtensionIsGenericInTheWidth : Obligations.SignExtensionIsGenericInTheWidth := by
  unfold Obligations.SignExtensionIsGenericInTheWidth
  refine ⟨fun N W u _ _ => ?_, fun _ => rfl, fun _ => rfl⟩
  rw [ofInt_sext W u, BitVec.msb_eq_getLsbD_last]

/-- Settles O15: the operand ranges bound the numerators, and a word of 18 or 16 bits holds them all. -/
theorem numeratorsNeverOverflow : Obligations.NumeratorsNeverOverflow := by
  unfold Obligations.NumeratorsNeverOverflow
  refine ⟨fun hot => ?_, fun cold => ?_⟩
  · have hrange : -8192 ≤ sext hot ∧ sext hot ≤ 8191 := sx14_range hot
    simp only [hotFNum, sx14]
    refine ⟨by omega, by omega, by omega, by omega, fun W hW => ?_⟩
    have hword := signedRange_mono (w := 17) hW
    exact toInt_mul_signExtend_add hot 9 640 (by omega) (by push_cast; omega) (by push_cast; omega)
  · have hrange : -2048 ≤ sext cold ∧ sext cold ≤ 2047 := sx12_range cold
    simp only [coldFNum, sx12]
    refine ⟨by omega, by omega, by omega, by omega, fun W hW => ?_⟩
    have hword := signedRange_mono (w := 15) hW
    exact toInt_mul_signExtend_add cold 9 2560 (by omega) (by push_cast; omega) (by push_cast; omega)

/-- Settles O13: the top bit of a field is set when the field is at least half of its range. -/
theorem signExtensionSubtractsTheWidth : Obligations.SignExtensionSubtractsTheWidth := by
  unfold Obligations.SignExtensionSubtractsTheWidth
  refine ⟨fun hot => ⟨?_, sx14_range hot⟩, fun cold => ⟨?_, sx12_range cold⟩⟩
  · simp only [sx14, sext, BitVec.msb_eq_decide, decide_eq_true_eq]
    norm_num
  · simp only [sx12, sext, BitVec.msb_eq_decide, decide_eq_true_eq]
    norm_num

end

section
/-! PROOFS. The exact encoder loses nothing (`42_temp_convert.md` R137), so the Celsius results are exact (R138 to R140). -/

namespace Sys2Proof.Machine

/-- The integer is its sign times its magnitude. -/
theorem sign_mul_natAbs (i : ℤ) : (if i < 0 then -1 else 1) * (i.natAbs : ℚ) = i := by
  rw [Nat.cast_natAbs]
  split_ifs with hneg
  · rw [abs_of_neg hneg]
    push_cast
    ring
  · rw [abs_of_nonneg (not_lt.mp hneg), one_mul]

theorem abs_ite_neg_one_one (P : Prop) [Decidable P] : |(if P then (-1 : ℚ) else 1)| = 1 := by
  split_ifs <;> simp

theorem abs_intCast_div (i : ℤ) {c : ℚ} (hc : 0 < c) : |(i : ℚ) / c| = i.natAbs / c := by
  rw [abs_div, abs_of_pos hc, Nat.cast_natAbs, Int.cast_abs]

/-- Shifting a number of at most 24 bits up to its full 24-bit significand. -/
theorem shift_log2_range {a : Nat} (ha : a ≠ 0) (hlog : a.log2 < 24) :
    2 ^ 23 ≤ a * 2 ^ (23 - a.log2) ∧ a * 2 ^ (23 - a.log2) < 2 ^ 24 := by
  have hlo : 2 ^ a.log2 ≤ a := Nat.log2_self_le ha
  have hhi : a < 2 ^ (a.log2 + 1) := Nat.lt_log2_self
  constructor
  · calc 2 ^ 23 = 2 ^ a.log2 * 2 ^ (23 - a.log2) := by rw [← pow_add]; congr 1; omega
      _ ≤ a * 2 ^ (23 - a.log2) := by gcongr
  · calc a * 2 ^ (23 - a.log2) < 2 ^ (a.log2 + 1) * 2 ^ (23 - a.log2) := by gcongr
      _ = 2 ^ 24 := by rw [← pow_add]; congr 1; omega

/-- The exact encoder on a nonzero integer: the shift keeps every bit (R137). -/
theorem f32Exact_of_ne_zero {i : ℤ} (k : Nat) (h0 : i ≠ 0) (hi : i.natAbs < 2 ^ 24) :
    f32Exact i k =
      joinF32 (decide (i < 0)) (i.natAbs.log2 + 127 - k) (i.natAbs * 2 ^ (23 - i.natAbs.log2) - 2 ^ 23) := by
  have ha : i.natAbs ≠ 0 := Int.natAbs_ne_zero.mpr h0
  obtain ⟨hlo, hhi⟩ := shift_log2_range ha ((Nat.log2_lt ha).mpr hi)
  have htrail : i.natAbs * 2 ^ (23 - i.natAbs.log2) % 2 ^ 23 = i.natAbs * 2 ^ (23 - i.natAbs.log2) - 2 ^ 23 := by omega
  rw [f32Exact, if_neg h0]
  simp only [htrail]

/-- Where the exponent of R137 is that of a normal number, the encoder's pattern stands for the exact value. -/
theorem val32_f32Exact {i : ℤ} {k : Nat} (h0 : i ≠ 0) (hi : i.natAbs < 2 ^ 24) (hk : k ≤ i.natAbs.log2 + 126) :
    val32 (f32Exact i k) = some ((i : ℚ) / 2 ^ k) := by
  have ha : i.natAbs ≠ 0 := Int.natAbs_ne_zero.mpr h0
  have hlog : i.natAbs.log2 < 24 := (Nat.log2_lt ha).mpr hi
  obtain ⟨hlo, hhi⟩ := shift_log2_range ha hlog
  have hscale : (2 : ℚ) ^ (23 - i.natAbs.log2) * 2 ^ (((i.natAbs.log2 + 127 - k : ℕ) : ℤ) - 150) = (2 ^ k)⁻¹ := by
    rw [← zpow_natCast, ← zpow_natCast (2 : ℚ) k, ← zpow_add₀ two_ne_zero, ← zpow_neg]
    congr 1
    omega
  rw [f32Exact_of_ne_zero k h0 hi, val32_joinF32 _ (by omega) (by omega) hlo hhi]
  simp only [decide_eq_true_eq]
  push_cast
  rw [mul_assoc, hscale, ← mul_assoc, sign_mul_natAbs, div_eq_mul_inv]

theorem f32Exact_zero (k : Nat) : f32Exact 0 k = 0x00000000 := if_pos rfl

theorem val32_zero : val32 0x00000000 = some 0 := by
  have hclass : classify32 0x00000000 = .zero := by decide
  simp only [val32, hclass]

/-- On the encoder's domain the exponent of R137 is that of a normal number. -/
theorem le_log2_of_normal {i : ℤ} {k : Nat} (h : (2 : ℚ) ^ (-126 : ℤ) ≤ |(i : ℚ) / 2 ^ k|) :
    k ≤ i.natAbs.log2 + 126 := by
  rw [abs_intCast_div i (by positivity)] at h
  have hhi : (i.natAbs : ℚ) < 2 ^ (i.natAbs.log2 + 1) := by exact_mod_cast Nat.lt_log2_self
  have hpow : (2 : ℚ) ^ (-126 : ℤ) < 2 ^ ((i.natAbs.log2 + 1 : ℕ) - (k : ℤ)) := by
    rw [zpow_sub₀ two_ne_zero, zpow_natCast, zpow_natCast]
    calc (2 : ℚ) ^ (-126 : ℤ) ≤ i.natAbs / 2 ^ k := h
      _ < 2 ^ (i.natAbs.log2 + 1) / 2 ^ k := by gcongr
  have hexp := (zpow_lt_zpow_iff_right₀ one_lt_two).mp hpow
  omega

/-- An integer below `2^24` scaled down by at most 126 bits is encoded exactly. -/
theorem val32_f32Exact_of_le {i : ℤ} {k : Nat} (hi : i.natAbs < 2 ^ 24) (hk : k ≤ 126) :
    val32 (f32Exact i k) = some ((i : ℚ) / 2 ^ k) := by
  obtain rfl | h0 := eq_or_ne i 0
  · rw [f32Exact_zero, val32_zero, Int.cast_zero, zero_div]
  · exact val32_f32Exact h0 hi (by omega)

theorem convert_hotC (f : DecodedFields) : (convert f).hotC = f32Exact (sx14 f.hotJunctionRaw) 2 := by
  simp only [convert, cvtHC, Config.hotFrac]

theorem convert_coldC (f : DecodedFields) : (convert f).coldC = f32Exact (sx12 f.coldJunctionRaw) 4 := by
  simp only [convert, cvtCC, Config.coldFrac]

/-- `val32(hotC) = n/4` exactly (R139). -/
theorem val32_hotC (f : DecodedFields) : val32 (convert f).hotC = some ((sx14 f.hotJunctionRaw : ℚ) / 4) := by
  have hrange := sx14_range f.hotJunctionRaw
  rw [convert_hotC, val32_f32Exact_of_le (by omega) (by norm_num)]
  norm_num

/-- `val32(coldC) = m/16` exactly (R140). -/
theorem val32_coldC (f : DecodedFields) : val32 (convert f).coldC = some ((sx12 f.coldJunctionRaw : ℚ) / 16) := by
  have hrange := sx12_range f.coldJunctionRaw
  rw [convert_coldC, val32_f32Exact_of_le (by omega) (by norm_num)]
  norm_num

/-- The biased exponent of an exact result is that of the integer's top bit, scaled down. -/
theorem biasedExp_f32Exact {i : ℤ} (k : Nat) (h0 : i ≠ 0) (hi : i.natAbs < 2 ^ 24) :
    biasedExp (f32Exact i k) = i.natAbs.log2 + 127 - k := by
  have ha : i.natAbs ≠ 0 := Int.natAbs_ne_zero.mpr h0
  have hlog : i.natAbs.log2 < 24 := (Nat.log2_lt ha).mpr hi
  obtain ⟨hlo, hhi⟩ := shift_log2_range ha hlog
  rw [f32Exact_of_ne_zero k h0 hi, biasedExp_joinF32 _ (by omega) (by omega)]

/-- An exact result is `+0`, or a normal number with an exponent from that of 1 to that of bit `p`, scaled down. -/
theorem f32Exact_zero_or_exp {i : ℤ} {k p : Nat} (hi : i.natAbs < 2 ^ (p + 1)) (hp : p ≤ 23) (hk : k ≤ 126) :
    f32Exact i k = 0x00000000 ∨
      classify32 (f32Exact i k) = .normal ∧ 127 - k ≤ biasedExp (f32Exact i k) ∧
        biasedExp (f32Exact i k) ≤ p + 127 - k := by
  obtain rfl | h0 := eq_or_ne i 0
  · exact .inl (f32Exact_zero k)
  · have hlog : i.natAbs.log2 < p + 1 := (Nat.log2_lt (Int.natAbs_ne_zero.mpr h0)).mpr hi
    have hi' : i.natAbs < 2 ^ 24 := hi.trans_le (Nat.pow_le_pow_right two_pos (by omega))
    refine .inr ⟨classify32_f32Exact h0 hi' hk, ?_⟩
    rw [biasedExp_f32Exact k h0 hi']
    omega

end Sys2Proof.Machine

open Sys2Proof Sys2Proof.Machine

/-- Settles O16: zero is `+0`, and any other integer of the domain has the exponent of a normal number. -/
theorem exactEncoderLosesNothing : Obligations.ExactEncoderLosesNothing := by
  unfold Obligations.ExactEncoderLosesNothing
  refine ⟨fun i k hi hdom => ?_, f32Exact_zero⟩
  obtain rfl | h0 := eq_or_ne i 0
  · rw [f32Exact_zero, val32_zero, Int.cast_zero, zero_div]
  · exact val32_f32Exact h0 hi (le_log2_of_normal (hdom.resolve_left h0))

/-- Settles O18: both operands are below `2^24` in magnitude, and the encoder of zero is `+0`. -/
theorem celsiusResultsAreExact : Obligations.CelsiusResultsAreExact := by
  unfold Obligations.CelsiusResultsAreExact
  refine ⟨fun f => ⟨val32_hotC f, val32_coldC f⟩, fun f h => ?_, fun f h => ?_⟩
  · rw [convert_hotC, h, f32Exact_zero]
  · rw [convert_coldC, h, f32Exact_zero]

end

section
/-! PROOFS. The rounding encoder gives the nearest binary32 number, ties to even (`42_temp_convert.md` R141): the scaled
quotient against the grid of the result's binade, on which every value at least as large lies. -/

namespace Sys2Proof.Machine

/-! ## Rounding to the nearest integer against other numbers -/

/-- A number within a half of the integer `q` is at least a half away from every other integer. -/
theorem half_le_abs_sub {q t : ℤ} {v : ℚ} (herr : |(q : ℚ) - v| ≤ 1 / 2) (hne : t ≠ q) : 1 / 2 ≤ |(t : ℚ) - v| := by
  have hone : (1 : ℚ) ≤ |(t : ℚ) - q| := by exact_mod_cast Int.one_le_abs (sub_ne_zero.mpr hne)
  have htri := abs_sub_le (t : ℚ) v q
  rw [abs_sub_comm v] at htri
  linarith

/-- Everything below an integer `m` that is itself below `v` is farther from `v` than the integer nearest to `v`. -/
theorem abs_sub_lt_of_below {q m : ℤ} {v y : ℚ} (herr : |(q : ℚ) - v| ≤ 1 / 2) (hm : (m : ℚ) ≤ v) (hy : y < m) :
    |(q : ℚ) - v| < |y - v| := by
  have hnearer : |(q : ℚ) - v| ≤ |(m : ℚ) - v| := by
    obtain rfl | hne := eq_or_ne m q
    · exact le_rfl
    · exact herr.trans (half_le_abs_sub herr hne)
  rw [abs_of_nonpos (by linarith : (m : ℚ) - v ≤ 0)] at hnearer
  rw [abs_of_neg (by linarith : y - v < 0)]
  linarith

/-! ## The values of binary32 as multiples of a unit in the last place -/

/-- Every value is a multiple of the unit in the last place of a binade, or smaller than the binade (R136). -/
theorem val32_onGrid {b : Word} {y : ℚ} (h : val32 b = some y) (e : ℤ) :
    (∃ t : ℤ, y = t * 2 ^ (e - 23)) ∨ |y| < 2 ^ 23 * 2 ^ (e - 23) := by
  obtain ⟨k, j, hk, hy⟩ := val32_some h
  obtain hj | hj := le_or_gt (e - 23) j
  · left
    obtain ⟨n, hn⟩ := Int.eq_ofNat_of_zero_le (sub_nonneg.mpr hj)
    have hgrid : |y| = ((k * 2 ^ n : ℤ) : ℚ) * 2 ^ (e - 23) := by
      rw [hy, show j = (n : ℤ) + (e - 23) by omega, zpow_add₀ two_ne_zero, zpow_natCast]
      push_cast
      ring
    obtain hpos | hneg := abs_choice y
    · exact ⟨_, hpos ▸ hgrid⟩
    · refine ⟨-(k * 2 ^ n), ?_⟩
      rw [Int.cast_neg, neg_mul, ← hgrid, hneg, neg_neg]
  · right
    have hk' : (k : ℚ) < 2 ^ 24 := by exact_mod_cast hk
    calc |y| = k * 2 ^ j := hy
      _ < 2 ^ 24 * 2 ^ j := by gcongr
      _ ≤ 2 ^ 24 * 2 ^ (e - 23 - 1) := by
        gcongr
        · norm_num
        · omega
      _ = 2 ^ 23 * 2 ^ (e - 23) := by
        rw [zpow_sub_one₀ two_ne_zero]
        ring

/-! ## The rounding encoder's exponent, scaled quotient and rounded significand -/

/-- The exponent of R141 is the floor of the quotient's logarithm. -/
theorem le_rneExp_iff {a den : Nat} (ha : 0 < a) (hd : 0 < den) (m : ℤ) :
    m ≤ rneExp a den ↔ (den : ℚ) * 2 ^ m ≤ a := by
  obtain ⟨hlo, hhi⟩ := rneExp_spec ha hd
  constructor
  · intro hm
    refine le_trans ?_ hlo
    gcongr
    norm_num
  · intro hm
    have hlt : (2 : ℚ) ^ m < 2 ^ (rneExp a den + 1) := lt_of_mul_lt_mul_left (hm.trans_lt hhi) (Nat.cast_nonneg den)
    have hexp := (zpow_lt_zpow_iff_right₀ one_lt_two).mp hlt
    omega

/-- The dividend of R141 over its divisor: the quotient in units of the last place of its binade. -/
def rneScaled (num : ℤ) (den : Nat) : ℚ :=
  (rneNum num.natAbs (rneExp num.natAbs den) : ℚ) / rneDen den (rneExp num.natAbs den)

/-- The rounded significand `q` of R141. -/
def rneSignificand (num : ℤ) (den : Nat) : Nat :=
  roundNearestEven (rneNum num.natAbs (rneExp num.natAbs den)) (rneDen den (rneExp num.natAbs den))

/-- The unit in the last place of the quotient's binade. -/
def rneUlp (num : ℤ) (den : Nat) : ℚ := 2 ^ (rneExp num.natAbs den - 23)

/-- The rounded significand scaled back, with the sign of the quotient. -/
def rneValue (num : ℤ) (den : Nat) : ℚ := (if num < 0 then -1 else 1) * (rneSignificand num den * rneUlp num den)

/-- The encoder's pattern by the two lines of R141, with and without the carry. -/
theorem f32Rne_eq (num : ℤ) (den : Nat) :
    f32Rne num den =
      if rneSignificand num den = 2 ^ 24 then joinF32 (decide (num < 0)) (rneExp num.natAbs den + 1 + 127).toNat 0
      else joinF32 (decide (num < 0)) (rneExp num.natAbs den + 127).toNat (rneSignificand num den - 2 ^ 23) := rfl

theorem rneUlp_pos (num : ℤ) (den : Nat) : 0 < rneUlp num den := by
  unfold rneUlp
  positivity

/-- A value of binary32 in units of the last place of the quotient's binade: an integer, or below the binade. -/
theorem val32_inUlps {b : Word} {y : ℚ} (h : val32 b = some y) (num : ℤ) (den : Nat) :
    ∃ z : ℚ, y = (if num < 0 then -1 else 1) * (z * rneUlp num den) ∧ ((∃ t : ℤ, z = t) ∨ z < 2 ^ 23) := by
  have hulp := rneUlp_pos num den
  obtain ⟨t, ht⟩ | hsmall := val32_onGrid h (rneExp num.natAbs den)
  · refine ⟨((if num < 0 then -t else t : ℤ) : ℚ), ?_, .inl ⟨_, rfl⟩⟩
    rw [ht, rneUlp]
    split_ifs <;> push_cast <;> ring
  · refine ⟨(if num < 0 then -1 else 1) * y / rneUlp num den, ?_, .inr ?_⟩
    · rw [div_mul_cancel₀ _ hulp.ne']
      split_ifs <;> ring
    · obtain ⟨hlo, hhi⟩ := abs_lt.mp hsmall
      rw [div_lt_iff₀ hulp, rneUlp]
      split_ifs <;> linarith

section quotient
variable {num : ℤ} {den : Nat} (hn : num ≠ 0) (hd : 0 < den)
include hd

/-- The rounded significand is within a half of the scaled quotient, and even where it is a half away. -/
theorem rneSignificand_spec :
    |(rneSignificand num den : ℚ) - rneScaled num den| ≤ 1 / 2 ∧
      (|(rneSignificand num den : ℚ) - rneScaled num den| = 1 / 2 → rneSignificand num den % 2 = 0) :=
  roundNearestEven_spec _ (rneDen_pos hd _)

theorem rneScaled_mul_ulp : rneScaled num den * rneUlp num den = num.natAbs / den := by
  rw [rneScaled, rneUlp, rneNum_div_rneDen _ hd, mul_assoc, ← zpow_add₀ two_ne_zero, sub_add_sub_cancel, sub_self,
    zpow_zero, mul_one]

/-- Distances from the quotient, in units of the last place. -/
theorem abs_sub_quotient (z : ℚ) :
    |(if num < 0 then -1 else 1) * (z * rneUlp num den) - (num : ℚ) / den| =
      |z - rneScaled num den| * rneUlp num den := by
  have hquot : (num : ℚ) / den = (if num < 0 then -1 else 1) * (rneScaled num den * rneUlp num den) := by
    rw [rneScaled_mul_ulp hd, ← mul_div_assoc, sign_mul_natAbs]
  rw [hquot, ← mul_sub, ← sub_mul, abs_mul, abs_ite_neg_one_one, one_mul, abs_mul, abs_of_pos (rneUlp_pos num den)]

/-- A rounded significand at the carry is a half or less above the scaled quotient. -/
theorem no_carry_of_lt (h : rneScaled num den < 2 ^ 24 - 1 / 2) : rneSignificand num den ≠ 2 ^ 24 := by
  intro hq
  obtain ⟨herr, -⟩ := rneSignificand_spec (num := num) hd
  have hhi := (abs_le.mp herr).2
  rw [hq] at hhi
  push_cast at hhi
  linarith

include hn

theorem rneSignificand_range : 2 ^ 23 ≤ rneSignificand num den ∧ rneSignificand num den ≤ 2 ^ 24 :=
  roundNearestEven_range (Int.natAbs_pos.mpr hn) hd

/-- The scaled quotient is in the binade of the 24-bit significands. -/
theorem rneScaled_range : 2 ^ 23 ≤ rneScaled num den ∧ rneScaled num den < 2 ^ 24 := by
  have hdq : (0 : ℚ) < den := by exact_mod_cast hd
  obtain ⟨hlo, hhi⟩ := rneExp_spec (Int.natAbs_pos.mpr hn) hd
  have hbinade : (2 : ℚ) ^ rneExp num.natAbs den = 2 ^ 23 * rneUlp num den := by
    rw [rneUlp, ← zpow_natCast, ← zpow_add₀ two_ne_zero]
    congr 1
    push_cast
    ring
  have hulp := rneUlp_pos num den
  have hscaled : (den : ℚ) * (rneScaled num den * rneUlp num den) = num.natAbs := by
    rw [rneScaled_mul_ulp hd, mul_div_cancel₀ _ hdq.ne']
  rw [← hscaled, mul_le_mul_iff_right₀ hdq, hbinade, mul_le_mul_iff_left₀ hulp] at hlo
  rw [← hscaled, zpow_add_one₀ two_ne_zero, mul_lt_mul_iff_right₀ hdq, hbinade] at hhi
  exact ⟨hlo, lt_of_mul_lt_mul_right (by linarith) hulp.le⟩

/-- The value of the encoder's pattern, where its exponent is that of a normal number. -/
theorem val32_f32Rne_eq_rneValue (hlo : -126 ≤ rneExp num.natAbs den)
    (hhi : rneExp num.natAbs den ≤ 126 ∨ rneExp num.natAbs den = 127 ∧ rneSignificand num den ≠ 2 ^ 24) :
    val32 (f32Rne num den) = some (rneValue num den) :=
  val32_f32Rne hn hd hlo hhi

/-- Another value is farther from the quotient than the encoder's, or the quotient is a tie and it is as far or farther
(R141). -/
theorem rneValue_nearest {b : Word} {y : ℚ} (hy : val32 b = some y) (hne : y ≠ rneValue num den) :
    |rneValue num den - (num : ℚ) / den| < |y - (num : ℚ) / den| ∨
    (|(rneSignificand num den : ℚ) - rneScaled num den| = 1 / 2 ∧
      |rneValue num den - (num : ℚ) / den| ≤ |y - (num : ℚ) / den|) := by
  have hulp := rneUlp_pos num den
  obtain ⟨herr, -⟩ := rneSignificand_spec (num := num) hd
  obtain ⟨hscaled, -⟩ := rneScaled_range hn hd
  obtain ⟨z, rfl, hz⟩ := val32_inUlps hy num den
  have hzq : z ≠ rneSignificand num den := fun h => hne (by rw [h, rneValue])
  rw [rneValue, abs_sub_quotient hd, abs_sub_quotient hd, mul_lt_mul_iff_left₀ hulp, mul_le_mul_iff_left₀ hulp]
  obtain ⟨t, rfl⟩ | hbelow := hz
  · have hhalf : 1 / 2 ≤ |(t : ℚ) - rneScaled num den| :=
      half_le_abs_sub (q := rneSignificand num den) herr (by exact_mod_cast hzq)
    obtain hlt | heq := herr.lt_or_eq
    · exact .inl (hlt.trans_le hhalf)
    · exact .inr ⟨heq, herr.trans hhalf⟩
  · exact .inl (abs_sub_lt_of_below (q := rneSignificand num den) (m := 2 ^ 23) herr
      (by exact_mod_cast hscaled) (by exact_mod_cast hbelow))

/-- An even rounded significand leaves an even trailing significand in the pattern, with the carry or without. -/
theorem trailing_f32Rne_even (hlo : -126 ≤ rneExp num.natAbs den) (hhi : rneExp num.natAbs den ≤ 127)
    (heven : rneSignificand num den % 2 = 0) : trailing (f32Rne num den) % 2 = 0 := by
  obtain ⟨hqlo, hqhi⟩ := rneSignificand_range hn hd
  rw [f32Rne_eq]
  split_ifs with hcarry
  · rw [trailing_joinF32 _ (by omega) (by norm_num)]
  · rw [trailing_joinF32 _ (by omega) (by omega)]
    omega

/-- On the domain of R141, its closed end excepted, the exponent is that of a normal number, after a carry too. -/
theorem rneExp_of_normal (hlo : (2 : ℚ) ^ (-126 : ℤ) ≤ |(num : ℚ) / den|)
    (hhi : |(num : ℚ) / den| < 2 ^ 128 - 2 ^ 103) :
    -126 ≤ rneExp num.natAbs den ∧
      (rneExp num.natAbs den ≤ 126 ∨ rneExp num.natAbs den = 127 ∧ rneSignificand num den ≠ 2 ^ 24) := by
  have ha : 0 < num.natAbs := Int.natAbs_pos.mpr hn
  have hdq : (0 : ℚ) < den := by exact_mod_cast hd
  rw [abs_intCast_div num hdq] at hlo hhi
  have hmin : -126 ≤ rneExp num.natAbs den := by
    rw [le_rneExp_iff ha hd, mul_comm]
    exact (le_div_iff₀ hdq).mp hlo
  have hmax : rneExp num.natAbs den < 128 := by
    rw [← not_le, le_rneExp_iff ha hd, mul_comm, ← le_div_iff₀ hdq, not_le]
    refine hhi.trans ?_
    norm_num
  obtain hle | htop : rneExp num.natAbs den ≤ 126 ∨ rneExp num.natAbs den = 127 := by omega
  · exact ⟨hmin, .inl hle⟩
  refine ⟨hmin, .inr ⟨htop, ?_⟩⟩
  have hulp : rneUlp num den = 2 ^ 104 := by
    rw [rneUlp, htop]
    norm_num
  rw [← rneScaled_mul_ulp hd, hulp] at hhi
  exact no_carry_of_lt hd (by linarith)

end quotient

end Sys2Proof.Machine

open Sys2Proof Sys2Proof.Machine

/-- Settles O17: a value other than the result's is farther, or the quotient is a tie and the significand even. -/
theorem roundingEncoderIsNearestTiesToEven : Obligations.RoundingEncoderIsNearestTiesToEven := by
  unfold Obligations.RoundingEncoderIsNearestTiesToEven
  intro num den hn hd hlo hhi
  obtain ⟨hmin, hmax⟩ := rneExp_of_normal hn hd hlo hhi
  refine ⟨rneValue num den, val32_f32Rne_eq_rneValue hn hd hmin hmax, fun b y hy => ?_⟩
  obtain rfl | hne := eq_or_ne y (rneValue num den)
  · exact ⟨le_rfl, fun _ hne => absurd rfl hne⟩
  obtain hlt | ⟨htie, hle⟩ := rneValue_nearest hn hd hy hne
  · exact ⟨hlt.le, fun heq _ => absurd heq hlt.ne⟩
  · exact ⟨hle, fun _ _ => trailing_f32Rne_even hn hd hmin (by omega) ((rneSignificand_spec hd).2 htie)⟩

end

section
/-! PROOFS. A nonzero value has one pattern (`42_temp_convert.md` R136): the biased exponent is read from the magnitude. -/

namespace Sys2Proof.Machine

theorem eq_of_fields_eq {b c : Word} (hS : signBit b = signBit c) (hE : biasedExp b = biasedExp c)
    (hT : trailing b = trailing c) : b = c := by
  have hb := b.isLt
  have hc := c.isLt
  rw [signBit_eq, signBit_eq, decide_eq_decide] at hS
  rw [biasedExp_eq, biasedExp_eq] at hE
  rw [trailing_eq, trailing_eq] at hT
  exact BitVec.eq_of_toNat_eq (by omega)

/-- The magnitude of a pattern in units of `2^-149`, the smallest subnormal number. -/
def magnitude (b : Word) : Nat :=
  if biasedExp b = 0 then trailing b else (2 ^ 23 + trailing b) * 2 ^ (biasedExp b - 1)

theorem magnitude_of_exp_zero {b : Word} (h : biasedExp b = 0) : magnitude b = trailing b := if_pos h

theorem magnitude_of_exp_pos {b : Word} (h : biasedExp b ≠ 0) :
    magnitude b = (2 ^ 23 + trailing b) * 2 ^ (biasedExp b - 1) := if_neg h

/-- The value of a pattern is its magnitude with its sign (R136). -/
theorem val32_eq_magnitude {b : Word} {y : ℚ} (h : val32 b = some y) :
    y = (if signBit b then -1 else 1) * (magnitude b * 2 ^ (-149 : ℤ)) := by
  by_cases hzero : biasedExp b = 0
  · rw [magnitude_of_exp_zero hzero]
    by_cases hT : trailing b = 0
    · have hclass : classify32 b = .zero := by rw [classify32, if_pos hzero, if_pos hT]
      simp only [val32, hclass, Option.some.injEq] at h
      simp [← h, hT]
    · have hclass : classify32 b = .subnormal := by rw [classify32, if_pos hzero, if_neg hT]
      simp only [val32, hclass, Option.some.injEq] at h
      rw [← h, mul_assoc]
      congr 1
      norm_num
      ring
  · by_cases htop : biasedExp b = 255
    · have hnone : val32 b = none := by
        simp only [val32, classify32, if_neg hzero, if_pos htop]
        split_ifs <;> rfl
      exact absurd (hnone.symm.trans h) (Option.some_ne_none y).symm
    · have hlt := biasedExp_lt b
      rw [val32_of_normal (by omega) (by omega), Option.some.injEq] at h
      have hscale : (2 : ℚ) ^ (biasedExp b - 1) * 2 ^ (-149 : ℤ) * 2 ^ 23 = 2 ^ ((biasedExp b : ℤ) - 127) := by
        rw [← zpow_natCast, ← zpow_natCast (2 : ℚ) 23, ← zpow_add₀ two_ne_zero, ← zpow_add₀ two_ne_zero]
        congr 1
        omega
      rw [← h, magnitude_of_exp_pos hzero, mul_assoc, ← hscale]
      push_cast
      ring

/-- A magnitude is below the binade after its own. -/
theorem magnitude_lt (b : Word) : magnitude b < 2 ^ (23 + biasedExp b) := by
  have hT := trailing_lt b
  by_cases hzero : biasedExp b = 0
  · rwa [magnitude_of_exp_zero hzero, hzero]
  · rw [magnitude_of_exp_pos hzero]
    calc (2 ^ 23 + trailing b) * 2 ^ (biasedExp b - 1) < 2 ^ 24 * 2 ^ (biasedExp b - 1) := by
          gcongr
          omega
      _ = 2 ^ (23 + biasedExp b) := by
          rw [← pow_add]
          congr 1
          omega

/-- A normal number is at least as large as the bottom of its binade. -/
theorem le_magnitude {b : Word} (h : biasedExp b ≠ 0) : 2 ^ (22 + biasedExp b) ≤ magnitude b := by
  rw [magnitude_of_exp_pos h]
  calc 2 ^ (22 + biasedExp b) = 2 ^ 23 * 2 ^ (biasedExp b - 1) := by
        rw [← pow_add]
        congr 1
        omega
    _ ≤ (2 ^ 23 + trailing b) * 2 ^ (biasedExp b - 1) := by
        gcongr
        exact Nat.le_add_right ..

theorem magnitude_lt_of_exp_lt {b c : Word} (h : biasedExp b < biasedExp c) : magnitude b < magnitude c :=
  calc magnitude b < 2 ^ (23 + biasedExp b) := magnitude_lt b
    _ ≤ 2 ^ (22 + biasedExp c) := Nat.pow_le_pow_right two_pos (by omega)
    _ ≤ magnitude c := le_magnitude (by omega)

/-- The magnitude determines the exponent and the significand. -/
theorem fields_eq_of_magnitude_eq {b c : Word} (h : magnitude b = magnitude c) :
    biasedExp b = biasedExp c ∧ trailing b = trailing c := by
  obtain hlt | hE | hgt := lt_trichotomy (biasedExp b) (biasedExp c)
  · exact absurd h (magnitude_lt_of_exp_lt hlt).ne
  · refine ⟨hE, ?_⟩
    by_cases hzero : biasedExp b = 0
    · rwa [magnitude_of_exp_zero hzero, magnitude_of_exp_zero (hE ▸ hzero)] at h
    · rw [magnitude_of_exp_pos hzero, magnitude_of_exp_pos (hE ▸ hzero), hE] at h
      exact Nat.add_left_cancel (Nat.eq_of_mul_eq_mul_right (by positivity) h)
  · exact absurd h (magnitude_lt_of_exp_lt hgt).ne'

theorem abs_val32 {b : Word} {y : ℚ} (h : val32 b = some y) : |y| = magnitude b * 2 ^ (-149 : ℤ) := by
  rw [val32_eq_magnitude h, abs_mul, abs_ite_neg_one_one, one_mul, abs_of_nonneg (by positivity)]

/-- The sign bit of a nonzero value says whether it is negative. -/
theorem signBit_eq_decide_neg {b : Word} {y : ℚ} (h : val32 b = some y) (hy : y ≠ 0) : signBit b = decide (y < 0) := by
  have hvalue := val32_eq_magnitude h
  have hmag : (0 : ℚ) ≤ magnitude b * 2 ^ (-149 : ℤ) := by positivity
  cases hS : signBit b with
  | false =>
    rw [hS, if_neg Bool.false_ne_true, one_mul] at hvalue
    exact (decide_eq_false (not_lt.mpr (hvalue ▸ hmag))).symm
  | true =>
    rw [hS, if_pos rfl] at hvalue
    exact (decide_eq_true (lt_of_le_of_ne (by linarith) hy)).symm

/-- Two patterns with one nonzero value are one pattern. -/
theorem val32_injective {b c : Word} {y : ℚ} (hb : val32 b = some y) (hc : val32 c = some y) (hy : y ≠ 0) : b = c := by
  have hunit : (2 : ℚ) ^ (-149 : ℤ) ≠ 0 := by positivity
  have hmag : magnitude b = magnitude c := by
    exact_mod_cast mul_right_cancel₀ hunit ((abs_val32 hb).symm.trans (abs_val32 hc))
  obtain ⟨hE, hT⟩ := fields_eq_of_magnitude_eq hmag
  exact eq_of_fields_eq ((signBit_eq_decide_neg hb hy).trans (signBit_eq_decide_neg hc hy).symm) hE hT

end Sys2Proof.Machine

end

section
/-! PROOFS. The rounding encoder on quotients by five times a power of two (`42_temp_convert.md` R141, R146): in units of the
last place they are multiples of four fifths, so there is no tie and no carry, and the error is at most two fifths. -/

namespace Sys2Proof.Machine

/-! ## Rounding a multiple of a fifth -/

section fifths
variable {q w : ℤ} {v : ℚ} (hv : 5 * v = w) (herr : |(q : ℚ) - v| ≤ 1 / 2)
include hv herr

/-- An error of at most a half that is a multiple of a fifth is at most two fifths. -/
theorem abs_sub_le_two_fifths : |(q : ℚ) - v| ≤ 2 / 5 := by
  have hfive : 5 * |(q : ℚ) - v| = (|5 * q - w| : ℤ) := by
    push_cast
    rw [← hv, ← mul_sub, abs_mul, abs_of_pos (by norm_num : (0 : ℚ) < 5)]
  have hlt : |5 * q - w| < 3 := by
    have hcast : ((|5 * q - w| : ℤ) : ℚ) < 3 := by linarith
    exact_mod_cast hcast
  have hle : ((|5 * q - w| : ℤ) : ℚ) ≤ 2 := by exact_mod_cast Int.lt_add_one_iff.mp hlt
  linarith

/-- The nearest integer is the number itself when the count of fifths has the factor five, and only then. -/
theorem eq_iff_five_dvd : (q : ℚ) = v ↔ 5 ∣ w := by
  constructor
  · rintro rfl
    exact ⟨q, by exact_mod_cast hv.symm⟩
  · rintro ⟨t, rfl⟩
    have ht : v = t := by
      push_cast at hv
      linarith
    obtain rfl | hne := eq_or_ne t q
    · exact ht.symm
    · have hhalf := half_le_abs_sub herr hne
      rw [ht, sub_self, abs_zero] at hhalf
      norm_num at hhalf

end fifths

/-! ## Quotients by five times a power of two -/

/-- A quotient by `5 * 2^d` whose binade is low enough to leave two bits of its unit to the numerator, as both Fahrenheit
conversions pass it (R141, R150). -/
structure FifthsQuotient (num : ℤ) (den d : Nat) : Prop where
  num_ne_zero : num ≠ 0
  den_eq : den = 5 * 2 ^ d
  le_exp : -126 ≤ rneExp num.natAbs den
  exp_le : rneExp num.natAbs den ≤ 21 - d

namespace FifthsQuotient
variable {num : ℤ} {den d : Nat} (h : FifthsQuotient num den d)
include h

theorem den_pos : 0 < den := by
  rw [h.den_eq]
  positivity

/-- The scaled quotient is a multiple of four fifths. -/
theorem five_mul_rneScaled : ∃ n : Nat, 5 * rneScaled num den = ((2 ^ (n + 2) * num.natAbs : ℕ) : ℤ) := by
  obtain ⟨n, hn⟩ := Int.eq_ofNat_of_zero_le (sub_nonneg.mpr h.exp_le)
  refine ⟨n, ?_⟩
  have hpow : (2 : ℚ) ^ (23 - rneExp num.natAbs den) = 2 ^ (n + 2) * 2 ^ d := by
    rw [← pow_add, ← zpow_natCast]
    congr 1
    push_cast
    omega
  rw [rneScaled, rneNum_div_rneDen _ h.den_pos, hpow, h.den_eq, Int.cast_natCast]
  simp only [Nat.cast_mul, Nat.cast_pow, Nat.cast_ofNat]
  field_simp

/-- The error is at most two fifths, so there is no tie (R146). -/
theorem abs_sub_rneScaled_le : |(rneSignificand num den : ℚ) - rneScaled num den| ≤ 2 / 5 := by
  obtain ⟨n, hn⟩ := h.five_mul_rneScaled
  obtain ⟨herr, -⟩ := rneSignificand_spec (num := num) h.den_pos
  exact abs_sub_le_two_fifths (q := rneSignificand num den) hn herr

/-- The rounding is exact when the numerator has the factor five, and only then (R146). -/
theorem significand_eq_iff : (rneSignificand num den : ℚ) = rneScaled num den ↔ (5 : ℤ) ∣ num := by
  obtain ⟨n, hn⟩ := h.five_mul_rneScaled
  obtain ⟨herr, -⟩ := rneSignificand_spec (num := num) h.den_pos
  have hcoprime : Nat.Coprime 5 (2 ^ (n + 2)) := Nat.Coprime.pow_right _ (by norm_num)
  calc (rneSignificand num den : ℚ) = rneScaled num den
      ↔ ((5 : ℕ) : ℤ) ∣ ((2 ^ (n + 2) * num.natAbs : ℕ) : ℤ) := eq_iff_five_dvd (q := rneSignificand num den) hn herr
    _ ↔ 5 ∣ num.natAbs := by rw [Int.natCast_dvd_natCast, hcoprime.dvd_mul_left]
    _ ↔ (5 : ℤ) ∣ num := by omega

/-- The last multiple of four fifths below `2^24` is too far from it to be rounded up to the carry. -/
theorem no_carry : rneSignificand num den ≠ 2 ^ 24 := by
  obtain ⟨n, hn⟩ := h.five_mul_rneScaled
  obtain ⟨-, hlt⟩ := rneScaled_range h.num_ne_zero h.den_pos
  have hbelow : 2 ^ (n + 2) * num.natAbs < 5 * 2 ^ 24 := by
    have hcast : (((2 ^ (n + 2) * num.natAbs : ℕ) : ℤ) : ℚ) < 5 * 2 ^ 24 := by linarith
    exact_mod_cast hcast
  have hgap : 2 ^ (n + 2) * num.natAbs + 4 ≤ 5 * 2 ^ 24 := by
    rw [pow_add, mul_right_comm] at hbelow ⊢
    omega
  have hcast : (((2 ^ (n + 2) * num.natAbs : ℕ) : ℤ) : ℚ) + 4 ≤ 5 * 2 ^ 24 := by exact_mod_cast hgap
  exact no_carry_of_lt h.den_pos (by linarith)

theorem val32_eq : val32 (f32Rne num den) = some (rneValue num den) := by
  have hmax := h.exp_le
  exact val32_f32Rne_eq_rneValue h.num_ne_zero h.den_pos h.le_exp (.inl (by omega))

theorem abs_rneValue_sub :
    |rneValue num den - (num : ℚ) / den| = |(rneSignificand num den : ℚ) - rneScaled num den| * rneUlp num den :=
  abs_sub_quotient h.den_pos _

theorem rneValue_eq_iff : rneValue num den = (num : ℚ) / den ↔ (5 : ℤ) ∣ num := by
  rw [← h.significand_eq_iff, ← sub_eq_zero, ← abs_eq_zero, h.abs_rneValue_sub,
    mul_eq_zero_iff_right (rneUlp_pos num den).ne', abs_eq_zero, sub_eq_zero]

/-- The error is at most two fifths of the unit in the last place of any binade that bounds the result's. -/
theorem abs_rneValue_sub_le {e : ℤ} (he : rneExp num.natAbs den ≤ e) :
    |rneValue num den - (num : ℚ) / den| ≤ 2 / 5 * 2 ^ (e - 23) := by
  have hulp : rneUlp num den ≤ 2 ^ (e - 23) := zpow_le_zpow_right₀ one_le_two (by omega)
  rw [h.abs_rneValue_sub]
  exact mul_le_mul h.abs_sub_rneScaled_le hulp (rneUlp_pos num den).le (by norm_num)

theorem rneValue_ne_zero : rneValue num den ≠ 0 := by
  obtain ⟨hq, -⟩ := rneSignificand_range h.num_ne_zero h.den_pos
  have hsig : (rneSignificand num den : ℚ) ≠ 0 := by exact_mod_cast (by omega : rneSignificand num den ≠ 0)
  rw [← abs_pos, rneValue, abs_mul, abs_ite_neg_one_one, one_mul, abs_pos]
  exact mul_ne_zero hsig (rneUlp_pos num den).ne'

/-- Every other pattern's value is strictly farther: there is no tie, and no other pattern has the result's value. -/
theorem unique_nearest {b : Word} {y : ℚ} (hy : val32 b = some y) (hne : b ≠ f32Rne num den) :
    |rneValue num den - (num : ℚ) / den| < |y - (num : ℚ) / den| := by
  have hvalue : y ≠ rneValue num den := by
    rintro rfl
    exact hne (val32_injective hy h.val32_eq h.rneValue_ne_zero)
  obtain hlt | ⟨htie, -⟩ := rneValue_nearest h.num_ne_zero h.den_pos hy hvalue
  · exact hlt
  · have herr := h.abs_sub_rneScaled_le
    rw [htie] at herr
    norm_num at herr

/-- Without a carry the biased exponent is that of the quotient. -/
theorem biasedExp_eq : (biasedExp (f32Rne num den) : ℤ) = rneExp num.natAbs den + 127 := by
  obtain ⟨hlo, hhi⟩ := rneSignificand_range h.num_ne_zero h.den_pos
  have hmin := h.le_exp
  have hmax := h.exp_le
  have hcarry := h.no_carry
  rw [f32Rne_eq, if_neg hcarry, biasedExp_joinF32 _ (by omega) (by omega)]
  omega

end FifthsQuotient

/-- Bounds on the exponent of R141 from comparisons of integers. -/
theorem rneExp_range {a den lo hi : Nat} (hd : 0 < den) (hlo : den ≤ a * 2 ^ lo) (hhi : a < den * 2 ^ hi) :
    -lo ≤ rneExp a den ∧ rneExp a den < hi := by
  have ha : 0 < a := Nat.pos_of_mul_pos_right (hd.trans_le hlo)
  rw [← not_le, le_rneExp_iff ha hd, le_rneExp_iff ha hd, not_le, zpow_natCast, zpow_neg, zpow_natCast,
    ← div_eq_mul_inv, div_le_iff₀ (by positivity)]
  exact ⟨by exact_mod_cast hlo, by exact_mod_cast hhi⟩

end Sys2Proof.Machine

end

section
/-! PROOFS. The converter's four results for every pair of operands (`42_temp_convert.md` R139 to R143): nearest values and
errors (R146), classes and order (R147), and that none is the pattern of an invalid output (R136). -/

namespace Sys2Proof.Machine

/-! ## The two Fahrenheit wires -/

theorem convert_hotF (f : DecodedFields) :
    (convert f).hotF = f32Rne (hotFNum (sx14 f.hotJunctionRaw)) hotFDen := by
  simp only [convert, cvtHF]

theorem convert_coldF (f : DecodedFields) :
    (convert f).coldF = f32Rne (coldFNum (sx12 f.coldJunctionRaw)) coldFDen := by
  simp only [convert, cvtCF]

/-- The exact hot Fahrenheit value as R150 writes it. -/
theorem hotF_quotient_eq (n : ℤ) : ((hotFNum n : ℤ) : ℚ) / hotFDen = (9 * n + 640) / 20 := by
  simp [hotFNum, hotFDen]

/-- The exact cold Fahrenheit value as R150 writes it. -/
theorem coldF_quotient_eq (m : ℤ) : ((coldFNum m : ℤ) : ℚ) / coldFDen = (9 * m + 2560) / 80 := by
  simp [coldFNum, coldFDen]

/-- The smallest hot numerator is 1 in magnitude and the largest is below `20 * 2^12` (R141). -/
theorem rneExp_hotF (hot : HotField) :
    -5 ≤ rneExp (hotFNum (sx14 hot)).natAbs hotFDen ∧ rneExp (hotFNum (sx14 hot)).natAbs hotFDen < 12 := by
  have hrange := sx14_range hot
  unfold hotFNum hotFDen
  exact rneExp_range (lo := 5) (hi := 12) (by norm_num) (by omega) (by omega)

/-- The smallest cold numerator is 4 in magnitude and the largest is below `80 * 2^9` (R141). -/
theorem rneExp_coldF (cold : ColdField) :
    -5 ≤ rneExp (coldFNum (sx12 cold)).natAbs coldFDen ∧ rneExp (coldFNum (sx12 cold)).natAbs coldFDen < 9 := by
  have hrange := sx12_range cold
  unfold coldFNum coldFDen
  exact rneExp_range (lo := 5) (hi := 9) (by norm_num) (by omega) (by omega)

theorem hotF_fifths (hot : HotField) : FifthsQuotient (hotFNum (sx14 hot)) hotFDen 2 := by
  obtain ⟨hlo, hhi⟩ := rneExp_hotF hot
  exact ⟨by unfold hotFNum; omega, rfl, by omega, by omega⟩

theorem coldF_fifths (cold : ColdField) : FifthsQuotient (coldFNum (sx12 cold)) coldFDen 4 := by
  obtain ⟨hlo, hhi⟩ := rneExp_coldF cold
  exact ⟨by unfold coldFNum; omega, rfl, by omega, by omega⟩

/-- The hot Fahrenheit wire has a value within 1/10240 of the exact one. -/
theorem val32_hotF_error (f : DecodedFields) :
    ∃ x : ℚ, val32 (convert f).hotF = some x ∧ |x - (9 * sx14 f.hotJunctionRaw + 640 : ℚ) / 20| ≤ 1 / 10240 := by
  have h := hotF_fifths f.hotJunctionRaw
  have hexp := rneExp_hotF f.hotJunctionRaw
  have herr := h.abs_rneValue_sub_le (e := 11) (by omega)
  rw [hotF_quotient_eq] at herr
  rw [convert_hotF]
  exact ⟨_, h.val32_eq, herr.trans_eq (by norm_num)⟩

/-- The cold Fahrenheit wire has a value within 1/81920 of the exact one. -/
theorem val32_coldF_error (f : DecodedFields) :
    ∃ x : ℚ, val32 (convert f).coldF = some x ∧ |x - (9 * sx12 f.coldJunctionRaw + 2560 : ℚ) / 80| ≤ 1 / 81920 := by
  have h := coldF_fifths f.coldJunctionRaw
  have hexp := rneExp_coldF f.coldJunctionRaw
  have herr := h.abs_rneValue_sub_le (e := 8) (by omega)
  rw [coldF_quotient_eq] at herr
  rw [convert_coldF]
  exact ⟨_, h.val32_eq, herr.trans_eq (by norm_num)⟩

/-! ## Order and classes -/

/-- Two quotients farther apart than twice the error keep their order. -/
theorem lt_of_abs_sub_le {x y r s c : ℚ} (hx : |x - r| ≤ c) (hy : |y - s| ≤ c) (h : r + 2 * c < s) : x < y := by
  have hx' := (abs_le.mp hx).2
  have hy' := (abs_le.mp hy).1
  linarith

/-- The pattern of an invalid output is a quiet NaN (R136). -/
theorem classify32_qnan : classify32 0x7FC00000 = .quietNan := by decide

theorem ne_qnan_of_zero_or_normal {x : Word} (h : x = 0x00000000 ∨ classify32 x = .normal) : x ≠ 0x7FC00000 := by
  rintro rfl
  obtain hzero | hnormal := h
  · exact absurd hzero (by decide)
  · exact absurd (classify32_qnan.symm.trans hnormal) (by decide)

end Sys2Proof.Machine

open Sys2Proof Sys2Proof.Machine

/-- Settles O19: each exact value is a quotient by five times a power of two, where no other pattern is as near. -/
theorem fahrenheitResultsAreTheUniqueNearest : Obligations.FahrenheitResultsAreTheUniqueNearest := by
  unfold Obligations.FahrenheitResultsAreTheUniqueNearest
  refine fun f => ⟨?_, ?_⟩
  · have h := hotF_fifths f.hotJunctionRaw
    have hexact : (sx14 f.hotJunctionRaw : ℚ) / 4 * (9 / 5) + 32 = hotFNum (sx14 f.hotJunctionRaw) / hotFDen := by
      rw [hotF_quotient_eq]
      ring
    rw [convert_hotF, hexact]
    exact ⟨_, h.val32_eq, fun b y hy hne => h.unique_nearest hy hne⟩
  · have h := coldF_fifths f.coldJunctionRaw
    have hexact : (sx12 f.coldJunctionRaw : ℚ) / 16 * (9 / 5) + 32 = coldFNum (sx12 f.coldJunctionRaw) / coldFDen := by
      rw [coldF_quotient_eq]
      ring
    rw [convert_coldF, hexact]
    exact ⟨_, h.val32_eq, fun b y hy hne => h.unique_nearest hy hne⟩

/-- Settles O20: five divides numerator and operand alike, and two fifths of the last place bound the error. -/
theorem fahrenheitErrorIsBounded : Obligations.FahrenheitErrorIsBounded := by
  unfold Obligations.FahrenheitErrorIsBounded
  refine fun f => ⟨?_, ?_, val32_hotF_error f, val32_coldF_error f⟩
  · have h := hotF_fifths f.hotJunctionRaw
    rw [convert_hotF, h.val32_eq, Option.some_inj, ← hotF_quotient_eq, h.rneValue_eq_iff, hotFNum]
    omega
  · have h := coldF_fifths f.coldJunctionRaw
    rw [convert_coldF, h.val32_eq, Option.some_inj, ← coldF_quotient_eq, h.rneValue_eq_iff, coldFNum]
    omega

/-- Settles O21: the exponents are those of the operand's top bit and of the quotient's binade. -/
theorem converterOutputClasses : Obligations.ConverterOutputClasses := by
  unfold Obligations.ConverterOutputClasses
  refine fun f => ⟨?_, ?_, ⟨convert_hotF_normal f, ?_⟩, convert_coldF_normal f, ?_⟩
  · have hrange := sx14_range f.hotJunctionRaw
    rw [convert_hotC]
    exact f32Exact_zero_or_exp (p := 13) (by omega) (by norm_num) (by norm_num)
  · have hrange := sx12_range f.coldJunctionRaw
    rw [convert_coldC]
    exact f32Exact_zero_or_exp (p := 11) (by omega) (by norm_num) (by norm_num)
  · have hexp := (hotF_fifths f.hotJunctionRaw).biasedExp_eq
    have hrange := rneExp_hotF f.hotJunctionRaw
    rw [convert_hotF]
    omega
  · have hexp := (coldF_fifths f.coldJunctionRaw).biasedExp_eq
    have hrange := rneExp_coldF f.coldJunctionRaw
    rw [convert_coldF]
    omega

/-- Settles O22: Celsius values are exact, and neighbouring Fahrenheit values lie farther apart than twice the error. -/
theorem conversionsAreStrictlyIncreasing : Obligations.ConversionsAreStrictlyIncreasing := by
  unfold Obligations.ConversionsAreStrictlyIncreasing
  refine ⟨fun f g h => ⟨?_, ?_⟩, fun f g h => ⟨?_, ?_⟩⟩
  · refine ⟨_, _, val32_hotC f, val32_hotC g, ?_⟩
    gcongr
  · obtain ⟨x, hx, hxerr⟩ := val32_hotF_error f
    obtain ⟨y, hy, hyerr⟩ := val32_hotF_error g
    have hstep : (sx14 f.hotJunctionRaw : ℚ) + 1 ≤ sx14 g.hotJunctionRaw := by exact_mod_cast h
    exact ⟨x, y, hx, hy, lt_of_abs_sub_le hxerr hyerr (by linarith)⟩
  · refine ⟨_, _, val32_coldC f, val32_coldC g, ?_⟩
    gcongr
  · obtain ⟨x, hx, hxerr⟩ := val32_coldF_error f
    obtain ⟨y, hy, hyerr⟩ := val32_coldF_error g
    have hstep : (sx12 f.coldJunctionRaw : ℚ) + 1 ≤ sx12 g.coldJunctionRaw := by exact_mod_cast h
    exact ⟨x, y, hx, hy, lt_of_abs_sub_le hxerr hyerr (by linarith)⟩

/-- Settles O47: a NaN has no value, and it is neither `+0` nor normal, as every result of the converter is. -/
theorem invalidPatternIsNoTemperature : Obligations.InvalidPatternIsNoTemperature := by
  unfold Obligations.InvalidPatternIsNoTemperature
  refine ⟨classify32_qnan, by simp only [val32, classify32_qnan], fun f => ⟨?_, ?_, ?_, ?_⟩⟩
  · exact ne_qnan_of_zero_or_normal (convert_hotC_zero_or_normal f)
  · exact ne_qnan_of_zero_or_normal (.inr (convert_hotF_normal f))
  · exact ne_qnan_of_zero_or_normal (convert_coldC_zero_or_normal f)
  · exact ne_qnan_of_zero_or_normal (.inr (convert_coldF_normal f))

/-- Settles O23: twenty-eight closed operands, converted. -/
theorem conversionCornerPatterns : Obligations.ConversionCornerPatterns := by
  unfold Obligations.ConversionCornerPatterns
  decide

end

section
/-! PROOFS. `Reading` register by register (`43_reading_step.md` R161), the step arm by arm (R160, R165), and what a faulted
reading shows of its frame (R163). -/

namespace Sys2Proof.Machine

/-- The bank that shows a reading, every register written out; the mark opens all four gates (R163). -/
theorem readingBank_registers (w : Word) (code : FaultCodeWord) (gfm tv : Bool) (wires : Wires) :
    readingBank w code gfm tv wires =
      { v := true, raw := w, fc := code, gf := gfm, tv := tv,
        hotC := if tv then wires.hotC else 0x7FC00000,
        hotF := if tv then wires.hotF else 0x7FC00000,
        coldC := if tv then wires.coldC else 0x7FC00000,
        coldF := if tv then wires.coldF else 0x7FC00000 } := by
  simp only [readingBank, gate_eq_ite, Config.qnan]

/-- `Reading` as R161 composes it: the mirror is bit 16 itself, and the mark is the code's comparison with `NONE`. -/
theorem reading_composed (w : Word) :
    reading w = readingBank w (faultCode (extract w)) (extract w).generalFault (decide (faultCode (extract w) = 0))
      (convert (extract w)) := by
  rw [reading_eq, temperaturesValid_eq, generalFaultMirror]

/-- The IDLE pattern, every register written out (R32). -/
theorem idle_registers :
    Bank.idle =
      { v := false, raw := 0x00000000, fc := 0, gf := false, tv := false,
        hotC := 0x7FC00000, hotF := 0x7FC00000, coldC := 0x7FC00000, coldF := 0x7FC00000 } := rfl

/-- An instruction loads the reading of its own encoding. -/
theorem exec_eq_load_reading (i : Instr) (s : State) : exec i s = .next (s.load (reading (encode i))) := by
  have hexec := exec_decode (encode i) s
  rwa [decode_encode] at hexec

/-- The chain does not look at the numeric fields (R122). -/
theorem faultCode_numericFields (f : DecodedFields) (hot : HotField) (cold : ColdField) :
    faultCode { f with hotJunctionRaw := hot, coldJunctionRaw := cold } = faultCode f := rfl

/-- Of faulted fields a reading shows the code and the mirror, and all eight in `RAW` only (R163). -/
theorem reading_pack_of_fault {f : DecodedFields} (h : faultCode f ≠ 0) :
    reading (pack f) =
      { Bank.idle with v := true, raw := pack f, fc := faultCode f, gf := f.generalFault } := by
  have hgf : (pack f).getLsbD 16 = f.generalFault := xGf_pack f
  rw [reading_of_fault (by rwa [extract_pack]), extract_pack, hgf]

end Sys2Proof.Machine

open Sys2Proof Sys2Proof.Machine

/-- Settles O31: an instruction loads the reading of its encoding, and R161 composes that reading's registers. -/
theorem everyFrameLoadsItsReading : Obligations.EveryFrameLoadsItsReading := by
  unfold Obligations.EveryFrameLoadsItsReading
  intro i s
  rw [exec_eq_load_reading, reading_composed, readingBank_registers, State.load]

/-- Settles O33: the step loads the bank of its sample, and each of the three banks is written out. -/
theorem stepFollowsItsThreeArms : Obligations.StepFollowsItsThreeArms := by
  unfold Obligations.StepFollowsItsThreeArms
  intro s
  refine ⟨_, step_eq_load s, ?_⟩
  rw [load_bank, sampleBank, reading_composed, readingBank_registers, idle_registers]

/-- Settles O46: both readings are the IDLE pattern with one code and one mirror, so only `RAW` can tell them apart. -/
theorem faultedReadingHidesTheTemperatures : Obligations.FaultedReadingHidesTheTemperatures := by
  unfold Obligations.FaultedReadingHidesTheTemperatures
  intro f hot cold s hfault
  have hfault' := (faultCode_numericFields f hot cold).trans_ne hfault
  refine ⟨_, _, exec_decode _ s, exec_decode _ s, ?_⟩
  rw [load_bank, load_bank, reading_pack_of_fault hfault, reading_pack_of_fault hfault', faultCode_numericFields]
  exact ⟨rfl, rfl, rfl⟩

/-- Settles O37: an edge without a frame leaves the IDLE pattern. -/
theorem idleEdgeWithdrawsTheReading : Obligations.IdleEdgeWithdrawsTheReading := by
  unfold Obligations.IdleEdgeWithdrawsTheReading
  intro s inFrame
  refine ⟨_, step_drive s _, ?_⟩
  rw [load_bank, sampleBank_of_noFrame (.inr rfl), idle_registers]

end
